-- ==== Sys2Proof/Word.lean ====
section
/-! DEFINITION. The word types of stackmachine_core (00_scope.md rules R7, R8) and the plainest readings of a word. -/

namespace Sys2Proof

/-- A byte: 8 bits (R7). -/
abbrev Byte := BitVec 8

/-- `Bits32`: the width of a Value, a register, a stack entry and the program counter (R8, 10_state.md R30). -/
abbrev Bits32 := BitVec 32

/-- A string is a finite byte sequence, first byte first (42_io.md R128). -/
abbrev Text := List Byte

/-- `sint(v)`: the two's-complement value (R8). -/
abbrev sint (v : Bits32) : Int := v.toInt

/-- `uint(v)`: the unsigned value (R8). -/
abbrev uint (v : Bits32) : Nat := v.toNat

/-- `bits32(n)`: the word with `uint` equal to `n mod 2^32` (R8). -/
abbrev bits32 (n : Int) : Bits32 := BitVec.ofInt 32 n

/-- `INT_MIN`, the word 0x80000000 (R8). -/
abbrev intMin : Bits32 := 0x80000000

/-- `INT_MAX`, the word 0x7FFFFFFF (R8). -/
abbrev intMax : Bits32 := 0x7FFFFFFF

end Sys2Proof
end

