-- ==== Sys2Proof/Syntax.lean ====
section
/-! DEFINITION. The Instruction Model (00_scope.md R3, R17): Value, Register, the eleven Instructions, Statement, Program,
and the decoded instruction record the decoder hands to the pipeline (30_encoding.md R85). -/

namespace Sys2Proof

/-- The four registers, A = 0, B = 1, C = 2, D = 3 (10_state.md R20, R21). -/
inductive Reg where
  | a | b | c | d
  deriving DecidableEq, Repr

/-- The register id (10_state.md R21). -/
def Reg.id : Reg → Nat
  | .a => 0
  | .b => 1
  | .c => 2
  | .d => 3

/-- The eleven instruction kinds, in the order of 30_encoding.md R69. -/
inductive Kind where
  | add | sub | mul | div | mod | input | output | halt | pushImm | pushReg | popReg
  deriving DecidableEq, Repr

/-- Every kind, in the order of R69. -/
def Kind.all : List Kind :=
  [.add, .sub, .mul, .div, .mod, .input, .output, .halt, .pushImm, .pushReg, .popReg]

/-- The kind's number, 0 to 10 (30_encoding.md R85, 40_execution_cycle.md R105). -/
def Kind.number : Kind → Nat
  | .add => 0
  | .sub => 1
  | .mul => 2
  | .div => 3
  | .mod => 4
  | .input => 5
  | .output => 6
  | .halt => 7
  | .pushImm => 8
  | .pushReg => 9
  | .popReg => 10

/-- The encoded length of an instruction of a kind: 1, 2 or 5 bytes (30_encoding.md R63). -/
def Kind.length : Kind → Nat
  | .pushImm => 5
  | .pushReg | .popReg => 2
  | .add | .sub | .mul | .div | .mod | .input | .output | .halt => 1

/-- An Instruction: one constructor per row of spec/opcode_table.json. A register operand is one of the four registers by
its type, so an ill-formed Instruction cannot be built (93_implementation_defined.md I18). -/
inductive Instr where
  | add
  | sub
  | mul
  | div
  | mod
  | input
  | output
  | halt
  | pushImm (v : Bits32)
  | pushReg (r : Reg)
  | popReg (r : Reg)
  deriving DecidableEq, Repr

/-- The instruction's kind. -/
def Instr.kind : Instr → Kind
  | .add => .add
  | .sub => .sub
  | .mul => .mul
  | .div => .div
  | .mod => .mod
  | .input => .input
  | .output => .output
  | .halt => .halt
  | .pushImm _ => .pushImm
  | .pushReg _ => .pushReg
  | .popReg _ => .popReg

/-- The instruction's encoded length in bytes (30_encoding.md R63). -/
def Instr.length (i : Instr) : Nat := i.kind.length

/-- A Statement wraps exactly one Instruction (00_scope.md R17, 20_memory.md R47). -/
structure Statement where
  instr : Instr
  deriving DecidableEq, Repr

/-- A Program is an ordered sequence of Statements (00_scope.md R17). -/
abbrev Program := List Statement

/-- The decoded instruction record `kind, imm, reg, len` of 30_encoding.md R85, as raw numbers. -/
structure DecodedRecord where
  kind : Nat
  imm : Bits32
  reg : Nat
  len : Nat
  deriving DecidableEq, Repr

/-- The record of an instruction; unused fields are 0 (R85). -/
def Instr.toRecord : Instr → DecodedRecord
  | .pushImm v => ⟨Kind.pushImm.number, v, 0, Kind.pushImm.length⟩
  | .pushReg r => ⟨Kind.pushReg.number, 0, r.id, Kind.pushReg.length⟩
  | .popReg r => ⟨Kind.popReg.number, 0, r.id, Kind.popReg.length⟩
  | i => ⟨i.kind.number, 0, 0, i.length⟩

/-- The entry of decoded-instruction memory: the same record with `len` replaced by 1 (R85). -/
def Statement.toRecord (st : Statement) : DecodedRecord := { st.instr.toRecord with len := 1 }

end Sys2Proof
end

