-- ==== Sys2Proof/Config.lean ====
section
/-! DEFINITION. The implementation parameters of 00_scope.md R6 as plain data, and the free values the spec leaves open. The
machine's state carries a `Params` that no step changes, so a statement about every state is about every parameter. -/

namespace Sys2Proof

/-- `OVERFLOW_MODE` (00_scope.md R6, 41_arithmetic.md R123). -/
inductive OverflowMode where
  | wrap | trap
  deriving DecidableEq, Repr

/-- `OPCODE_MAP` (00_scope.md R6, 30_encoding.md R69): the kind at each opcode number, opcode 0 first. -/
structure OpcodeMap where
  kinds : List Kind
  deriving DecidableEq, Repr

/-- The parameters the model takes as arguments (00_scope.md R6). `none` is `unbounded` for the stack depth and `unlimited`
for the input retries. `PROG_LEN` and `PROG_COUNT` are the extents of the program memories. -/
structure Params where
  stackDepth : Option Nat
  maxInputRetries : Option Nat
  promptText : Text
  retryText : Text
  overflow : OverflowMode
  opcodes : OpcodeMap
  deriving DecidableEq, Repr

/-- `PROMPT_TEXT` is OPEN (92_eei_decisions.md D17): a free value, log 3. -/
opaque Config.promptText : Text

/-- `RETRY_TEXT` is OPEN (92_eei_decisions.md D17): a free value, log 3. -/
opaque Config.retryText : Text

end Sys2Proof
end

