-- ==== Sys2Proof/WellFormed.lean ====
section
/-! DEFINITION. What the host must hand over well-formed (70_reset_and_hazards.md R174): decoded records (30_encoding.md R85),
the opcode map (R69), the parameters (00_scope.md R6) and a Program's size. -/

namespace Sys2Proof

/-- The operand fields a kind number allows: `imm` only for kind 8, `reg` 0 to 3 only for kinds 9 and 10 (R85). -/
def DecodedRecord.fieldsWf (r : DecodedRecord) : Bool :=
  (r.kind == 8 || r.imm == 0) && (if r.kind == 9 || r.kind == 10 then r.reg ≤ 3 else r.reg == 0)

/-- A well-formed record of the decoder: kind 0 to 10, fields in range, the length of R63. -/
def DecodedRecord.wf (r : DecodedRecord) : Bool :=
  r.kind ≤ 10 && r.fieldsWf
    && r.len == (if r.kind == 8 then 5 else if r.kind == 9 || r.kind == 10 then 2 else 1)

/-- A well-formed entry of decoded-instruction memory: the same with `len` 1 (R85). -/
def DecodedRecord.wfEntry (r : DecodedRecord) : Bool :=
  r.kind ≤ 10 && r.fieldsWf && r.len == 1

/-- An instruction is well-formed when its record is. The type `Instr` leaves nothing else to check (I18). -/
def Instr.wf (i : Instr) : Bool := i.toRecord.wf

/-- An opcode map is a bijection of the opcodes 0 to 10 with the eleven kinds, with ADD at 0 and PUSH imm at 8, the two
numbers the source fixes (30_encoding.md R69). -/
def OpcodeMap.wf (m : OpcodeMap) : Bool :=
  m.kinds.length == 11 && decide m.kinds.Nodup && Kind.all.all m.kinds.contains
    && m.kinds[0]? == some .add && m.kinds[8]? == some .pushImm

/-- The stack depth is a positive integer or unbounded; the opcode map is well-formed (00_scope.md R6). -/
def Params.wf (p : Params) : Bool :=
  p.stackDepth != some 0 && p.opcodes.wf

/-- `PROG_COUNT` is at most 2^32 − 1 (00_scope.md R6). -/
def Program.wf (p : Program) : Bool := p.length < 2 ^ 32

end Sys2Proof
end

