-- ==== Sys2Proof/Decode.lean ====
section
/-! DEFINITION. The `instruction_decoder` block (30_encoding.md R63–R85): one decoder for both uses (R81), total on any
bytes, rejecting by name; and after it the encoder that defines the wire format. -/

namespace Sys2Proof

/-- The decode errors of R73 (60_exceptions.md R148, layer DecodeError). -/
inductive DecodeError where
  | endOfInput
  | wrongOpCode (b : Byte)
  | wrongRegister (b : Byte)
  deriving DecidableEq, Repr

/-- The opcode numbers of 30_encoding.md R69 (92_eei_decisions.md D1). -/
def OpcodeMap.default : OpcodeMap := ⟨Kind.all⟩

/-- The kind an opcode byte names; none for a byte outside the map (11 to 255, R82). -/
def OpcodeMap.kindOf (m : OpcodeMap) (b : Byte) : Option Kind := m.kinds[b.toNat]?

/-- The opcode byte of a kind. -/
def OpcodeMap.opcodeOf (m : OpcodeMap) (k : Kind) : Byte := BitVec.ofNat 8 (m.kinds.idxOf k)

/-- The register a register byte names; none for 4 to 255 (R68: the byte is not masked). -/
def Reg.ofByte (b : Byte) : Option Reg :=
  if b = 0 then some .a else if b = 1 then some .b else if b = 2 then some .c else if b = 3 then some .d else none

/-- Four bytes read as one number, the first most significant (00_scope.md R12, 20_memory.md R50). -/
def joinBytes (b0 b1 b2 b3 : Byte) : Bits32 := b0 ++ b1 ++ b2 ++ b3

/-- `decode_value` (R70): four bytes, big-endian (R67), with the bytes consumed. -/
def decodeValue : List Byte → Except DecodeError (Bits32 × Nat)
  | b0 :: b1 :: b2 :: b3 :: _ => .ok (joinBytes b0 b1 b2 b3, 4)
  | _ => .error .endOfInput

/-- `decode_register` (R71). -/
def decodeRegister : List Byte → Except DecodeError (Reg × Nat)
  | [] => .error .endOfInput
  | b :: _ =>
    match Reg.ofByte b with
    | some r => .ok (r, 1)
    | none => .error (.wrongRegister b)

/-- `decode_opcode` (R72), through the opcode map. -/
def decodeOpcode (m : OpcodeMap) : List Byte → Except DecodeError (Kind × Nat)
  | [] => .error .endOfInput
  | b :: _ =>
    match m.kindOf b with
    | some k => .ok (k, 1)
    | none => .error (.wrongOpCode b)

/-- PUSH imm from the bytes after its opcode (R66). -/
def decodeImmOperand (rest : List Byte) : Except DecodeError (Instr × Nat) :=
  match decodeValue rest with
  | .ok (v, n) => .ok (.pushImm v, 1 + n)
  | .error e => .error e

/-- A format-R instruction from the bytes after its opcode (R65). -/
def decodeRegOperand (mk : Reg → Instr) (rest : List Byte) : Except DecodeError (Instr × Nat) :=
  match decodeRegister rest with
  | .ok (r, n) => .ok (mk r, 1 + n)
  | .error e => .error e

/-- The instruction of a kind, from the bytes after its opcode (R73). -/
def decodeOperands (k : Kind) (rest : List Byte) : Except DecodeError (Instr × Nat) :=
  match k with
  | .add => .ok (.add, 1)
  | .sub => .ok (.sub, 1)
  | .mul => .ok (.mul, 1)
  | .div => .ok (.div, 1)
  | .mod => .ok (.mod, 1)
  | .input => .ok (.input, 1)
  | .output => .ok (.output, 1)
  | .halt => .ok (.halt, 1)
  | .pushImm => decodeImmOperand rest
  | .pushReg => decodeRegOperand .pushReg rest
  | .popReg => decodeRegOperand .popReg rest

/-- `decode_instruction` (R73): one Instruction from the front of a byte sequence, with the bytes consumed. -/
def decodeInstruction (m : OpcodeMap) (bytes : List Byte) : Except DecodeError (Instr × Nat) :=
  match decodeOpcode m bytes with
  | .ok (k, n) => decodeOperands k (bytes.drop n)
  | .error e => .error e

/-- The loop of `decode_program` (R75), at most `fuel` instructions. Every instruction consumes at least one byte, so as much
fuel as there are bytes never runs out. -/
def decodeProgramFrom (m : OpcodeMap) : Nat → List Byte → Except DecodeError Program
  | _, [] => .ok []
  | 0, _ :: _ => .error .endOfInput
  | fuel + 1, b :: bytes =>
    match decodeInstruction m (b :: bytes) with
    | .error e => .error e
    | .ok (i, n) =>
      match decodeProgramFrom m fuel ((b :: bytes).drop n) with
      | .error e => .error e
      | .ok p => .ok (⟨i⟩ :: p)

/-- `decode_program` (R75): a whole Program, fail-fast. -/
def decodeProgram (m : OpcodeMap) (bytes : List Byte) : Except DecodeError Program :=
  decodeProgramFrom m bytes.length bytes

/-- A byte buffer is a valid program iff `decode_program` succeeds on it (R76). -/
def validProgram (m : OpcodeMap) (bytes : List Byte) : Bool :=
  match decodeProgram m bytes with
  | .ok _ => true
  | .error _ => false

/-! The encoder (R77–R79). -/

/-- `encode_value` (R77): big-endian. -/
def encodeValue (v : Bits32) : List Byte :=
  [v.extractLsb' 24 8, v.extractLsb' 16 8, v.extractLsb' 8 8, v.extractLsb' 0 8]

/-- `encode_register` (R77). -/
def encodeRegister (r : Reg) : List Byte := [BitVec.ofNat 8 r.id]

/-- The operand bytes of an instruction (R78). -/
def encodeOperands : Instr → List Byte
  | .pushImm v => encodeValue v
  | .pushReg r => encodeRegister r
  | .popReg r => encodeRegister r
  | .add | .sub | .mul | .div | .mod | .input | .output | .halt => []

/-- `encode_instruction` (R78), through the opcode map. -/
def encodeInstruction (m : OpcodeMap) (i : Instr) : List Byte :=
  m.opcodeOf i.kind :: encodeOperands i

/-- A Program encodes as the concatenation of its Statements' encodings (R79). -/
def encodeProgram (m : OpcodeMap) (p : Program) : List Byte :=
  p.flatMap fun st => encodeInstruction m st.instr

/-- The words of an instruction under the opcode numbers of R69. -/
def encode (i : Instr) : List Byte := encodeInstruction OpcodeMap.default i

/-! The opcode table's numbering. -/

/-- The `n` bytes of a number, most significant byte first. -/
def bytesOfNat : Nat → Nat → List Byte
  | 0, _ => []
  | n + 1, w => BitVec.ofNat 8 (w >>> (8 * n)) :: bytesOfNat n w

/-- The bytes of an instruction whose bits are `w`, numbered as spec/opcode_table.json numbers them: the whole instruction
read as one number with the opcode byte most significant (INDEX.md; log 13), then zero bytes up to the longest
instruction, five bytes. -/
def bytesOfTableWord (nbits w : Nat) : List Byte :=
  bytesOfNat (nbits / 8) w ++ List.replicate (5 - nbits / 8) 0

/-- What the decoder reads from a word of spec/opcode_table.json. -/
def decodeTableWord (nbits w : Nat) : Option Instr :=
  match decodeInstruction OpcodeMap.default (bytesOfTableWord nbits w) with
  | .ok (i, _) => some i
  | .error _ => none

end Sys2Proof
end

