-- ==== Sys2Proof/Machine/State.lean ====
section
/-! DEFINITION. The state of the machine as plain data: every piece of state of 10_state.md, the inputs of the step relation
(10_state.md R43) held beside it, and the open port transaction the spec implies (70_reset_and_hazards.md R170). -/

namespace Sys2Proof.Machine

/-- The register file: four 32-bit slots (10_state.md R20). -/
structure Regs where
  a : Bits32
  b : Bits32
  c : Bits32
  d : Bits32
  deriving DecidableEq, Repr

/-- `STATE` (10_state.md R34). The reserved values 6 and 7 are no constructor (I23). -/
inductive RunState where
  | idle | running | halted | ended | faulted | cancelled
  deriving DecidableEq, Repr

/-- `MODE`, the fetch source (10_state.md R35). -/
inductive Mode where
  | byte | decoded
  deriving DecidableEq, Repr

/-- The exceptions (60_exceptions.md R148). `CAUSE` is one of them or NONE; the reserved codes are no constructor (I24). -/
inductive Exception where
  | endOfInput
  | wrongOpCode
  | wrongRegister
  | stackUnderflow
  | inputError
  | outputError
  | divisionByZero
  | stackOverflow
  | arithmeticOverflow
  deriving DecidableEq, Repr

/-- Program memory: its cells by offset (20_memory.md R45, R46; log 10). -/
abbrev Memory := List Host.Cell

/-- The host's answer to an output transaction (42_io.md R128). -/
inductive OutAnswer where
  | ok | err
  deriving DecidableEq, Repr

/-- The host's answer to an input transaction (42_io.md R129). -/
inductive InAnswer where
  | line (t : Text)
  | eof
  | err
  deriving DecidableEq, Repr

/-- One entry of the I/O trace: a transaction with its answer (42_io.md R139). -/
inductive Transaction where
  | out (s : Text) (answer : OutAnswer)
  | inp (answer : InAnswer)
  deriving DecidableEq, Repr

/-- The port transaction the instruction in progress has open: INPUT's prompt write, its line read or its retry write, or
OUTPUT's value write (42_io.md R130, R134; log 5). -/
inductive Awaiting where
  | prompt | line | retry | value
  deriving DecidableEq, Repr

/-- The host's control inputs at one step: `rst`, `start(mode)`, `cancel` (40_execution_cycle.md R100). -/
structure Signals where
  rst : Bool := false
  start : Option Mode := none
  cancel : Bool := false
  deriving DecidableEq, Repr

/-- The machine's state. -/
structure State where
  /-- the registers `x[0..3]` (R20) -/
  x : Regs
  /-- the operand stack `S`, top first (R25) -/
  stack : List Bits32
  /-- byte offset or statement index (R30, R31) -/
  pc : Bits32
  /-- `STATE` (R34) -/
  runState : RunState
  /-- `MODE` (R35) -/
  mode : Mode
  /-- `CAUSE`; `none` is NONE (R36) -/
  cause : Option Exception
  /-- `FAULT_INFO` (R37) -/
  faultInfo : Byte
  /-- `FAULT_PC` (R38) -/
  faultPc : Bits32
  /-- `WAIT_INPUT` (R39) -/
  waitInput : Bool
  /-- the lines the INPUT in progress has rejected, exactly (42_io.md R132); `RETRY_COUNT` is this number in 32 bits, saturating
  (R39; log 16) -/
  rejected : Nat
  /-- the open port transaction, if an instruction is waiting on one (R170; log 5) -/
  awaiting : Option Awaiting
  /-- the run's port transactions, oldest first (42_io.md R139) -/
  trace : List Transaction
  /-- the program bytes, sparse (20_memory.md R46; log 10) -/
  mem : Memory
  /-- `PROG_LEN` (00_scope.md R6) -/
  progLen : Bits32
  /-- decoded-instruction memory; `PROG_COUNT` is its length (20_memory.md R47) -/
  program : Program
  /-- the parameters (00_scope.md R6) -/
  params : Params
  /-- what the host gives at each coming poll of an open input transaction: an answer, or `none`, not yet (log 6) -/
  inAnswers : List (Option InAnswer)
  /-- what the host gives at each coming poll of an open output transaction (log 6) -/
  outAnswers : List (Option OutAnswer)
  /-- the host's control inputs at the coming steps; nothing is asserted where the list has ended (log 7) -/
  control : List Signals
  deriving DecidableEq, Repr

/-- Where the machine stops outside the spec's own exceptions, which are next states. -/
inductive Fault where
  /-- Raised by `State.runInstruction` when the pc lies beyond the end of the program, an address that does not exist
  (20_memory.md R55, R56). No run reaches it (10_state.md R32). Safe. -/
  | fetchOutsideProgram
  deriving DecidableEq, Repr

/-- Where the model gives no meaning. -/
inductive Refusal where
  /-- Answered by an arm of `exec` whose instruction has no meaning yet; no arm answers so. Safe. -/
  | notModelled (mnemonic : String)
  deriving DecidableEq, Repr

/-- The outcome of an instruction or a step. -/
abbrev Result := Host.Outcome State Fault Refusal

/-- The parameters at reset: the defaults of 00_scope.md R6; the depth the source's stack has (log 2); free texts (log 3). -/
def paramsAtReset : Params where
  stackDepth := none
  maxInputRetries := none
  promptText := Config.promptText
  retryText := Config.retryText
  overflow := .wrap
  opcodes := OpcodeMap.default

/-- The machine right after `rst` (10_state.md R42), no program provided and nothing heard from the host. -/
def State.reset : State where
  x := ⟨0, 0, 0, 0⟩
  stack := []
  pc := 0
  runState := .idle
  mode := .byte
  cause := none
  faultInfo := 0
  faultPc := 0
  waitInput := false
  rejected := 0
  awaiting := none
  trace := []
  mem := []
  progLen := 0
  program := []
  params := paramsAtReset
  inAnswers := []
  outAnswers := []
  control := []

end Sys2Proof.Machine
end

