-- ==== Sys2Proof/Machine/Ops.lean ====
section
/-! DEFINITION. The named operations: program memory, the fetch window and the fetch, commit, taking an exception, and what
`rst` and `start` do. -/

namespace Sys2Proof.Machine

/-! Program memory: a sparse list of cells in one canonical form (20_memory.md R45, R46; log 10). -/

/-- What a program byte that no cell lists holds: the list leaves out the zero bytes of the program (log 10). -/
def unlistedByte : Byte := 0

/-- The byte at an offset. -/
def Memory.read : Memory → Nat → Byte
  | [], _ => unlistedByte
  | c :: m, a => if c.1 = a then c.2 else Memory.read m a

/-- A cell in front of the cells above it, unless it holds what an unlisted byte holds. -/
def Memory.cons (a : Nat) (v : Byte) (m : Memory) : Memory :=
  if v = unlistedByte then m else (a, v) :: m

/-- Place a byte. Only the host does, when it provides a program: the core never writes program memory (R51). -/
def Memory.write : Memory → Nat → Byte → Memory
  | [], a, v => Memory.cons a v []
  | c :: m, a, v =>
    if a < c.1 then Memory.cons a v (c :: m)
    else if a = c.1 then Memory.cons a v m
    else c :: Memory.write m a v

/-- The canonical form: offsets strictly rising and no cell that holds what an unlisted byte holds. -/
def Memory.wf : Memory → Bool
  | [] => true
  | c :: m => c.2 != unlistedByte && m.all (fun d => decide (c.1 < d.1)) && Memory.wf m

/-- Place bytes from an offset on. -/
def Memory.place (m : Memory) (a : Nat) : List Byte → Memory
  | [] => m
  | b :: bs => Memory.place (Memory.write m a b) (a + 1) bs

/-- The cells of a buffer that starts at an offset. -/
def Memory.ofBytes (a : Nat) : List Byte → Memory
  | [] => []
  | b :: bs => Memory.cons a b (Memory.ofBytes (a + 1) bs)

/-- `MemRead(addr, n)`: `n` bytes from an offset (00_scope.md R12). -/
def State.bytesAt (s : State) (a n : Nat) : List Byte :=
  (List.range n).map fun k => Memory.read s.mem (a + k)

/-- The program bytes `byte(0) .. byte(PROG_LEN − 1)` (10_state.md R43). -/
def State.programBytes (s : State) : List Byte := s.bytesAt 0 s.progLen.toNat

/-! Fetch. -/

/-- `avail`: the count of bytes in the fetch window (20_memory.md R53). -/
def State.avail (s : State) : Nat := min 5 (s.progLen.toNat - s.pc.toNat)

/-- The fetch window at `pc` (20_memory.md R53). -/
def State.window (s : State) : List Byte := s.bytesAt s.pc.toNat s.avail

/-- What a fetch finds. -/
inductive Fetched where
  | endOfProgram
  | instr (i : Instr)
  | malformed (e : DecodeError)
  | outside
  deriving DecidableEq, Repr

/-- Fetch and decode in byte mode (40_execution_cycle.md R102, R104). -/
def State.fetchByte (s : State) : Fetched :=
  if s.pc = s.progLen then .endOfProgram
  else if s.progLen.toNat < s.pc.toNat then .outside
  else
    match decodeInstruction s.params.opcodes s.window with
    | .ok (i, _) => .instr i
    | .error e => .malformed e

/-- Fetch in decoded mode (40_execution_cycle.md R103, R104). -/
def State.fetchDecoded (s : State) : Fetched :=
  if s.pc.toNat = s.program.length then .endOfProgram
  else
    match s.program[s.pc.toNat]? with
    | some st => .instr st.instr
    | none => .outside

/-- Fetch from the source `MODE` selects (10_state.md R35). -/
def State.fetch (s : State) : Fetched :=
  match s.mode with
  | .byte => s.fetchByte
  | .decoded => s.fetchDecoded

/-- `RETRY_COUNT`: the lines the INPUT in progress has rejected, saturating at 2^32 − 1 (10_state.md R39). -/
def State.retryCount (s : State) : Bits32 := BitVec.ofNat 32 (min s.rejected (2 ^ 32 - 1))

/-! Commit and exceptions. -/

/-- `len`: the encoded length in byte mode, 1 in decoded mode (10_state.md R32). -/
def State.len (s : State) (i : Instr) : Bits32 :=
  match s.mode with
  | .byte => BitVec.ofNat 32 i.length
  | .decoded => 1

/-- `pc <- pc + len`, as every instruction that completes does (10_state.md R32, 40_execution_cycle.md R106). -/
def State.commit (i : Instr) (s : State) : State := { s with pc := s.pc + s.len i }

/-- Fault entry (60_exceptions.md R160). The instruction's open transaction, if any, is over with it. -/
def State.raise (e : Exception) (info : Byte) (s : State) : State :=
  { s with
    runState := .faulted
    cause := some e
    faultInfo := info
    faultPc := s.pc
    waitInput := false
    rejected := 0
    awaiting := none }

/-- A decode error met by the byte-mode fetch, with its FAULT_INFO (10_state.md R37, 40_execution_cycle.md R116). -/
def State.raiseDecode (e : DecodeError) (s : State) : State :=
  match e with
  | .endOfInput => s.raise .endOfInput (BitVec.ofNat 8 (s.progLen.toNat - s.pc.toNat))
  | .wrongOpCode b => s.raise .wrongOpCode b
  | .wrongRegister b => s.raise .wrongRegister b

/-! Reset and start. -/

/-- `rst`: every piece of the core's state to its reset value; the program, the parameters and the host's streams are left
alone (70_reset_and_hazards.md R170, R172). -/
def State.rst (s : State) : State :=
  { State.reset with
    mem := s.mem
    progLen := s.progLen
    program := s.program
    params := s.params
    inAnswers := s.inAnswers
    outAnswers := s.outAnswers
    control := s.control }

/-- `start(mode)` (40_execution_cycle.md R101): MODE latched, RUNNING, everything else at its reset value. -/
def State.started (m : Mode) (s : State) : State := { s.rst with mode := m, runState := .running }

/-- The run is over: the core has no step (40_execution_cycle.md R109). -/
def State.isOver (s : State) : Bool :=
  match s.runState with
  | .halted | .ended | .faulted | .cancelled => true
  | .idle | .running => false

/-- The host's control inputs at this step. -/
def State.signals (s : State) : Signals := s.control.headD {}

/-- The state with this step's control inputs taken. -/
def State.tick (s : State) : State := { s with control := s.control.tail }

end Sys2Proof.Machine
end

