-- ==== Sys2Proof/Machine/Operands.lean ====
section
/-! DEFINITION. The operand forms: a register by its id (00_scope.md R10), the top of the stack (R11), and the two-operand
frame (41_arithmetic.md R117). The immediate is in the instruction itself. -/

namespace Sys2Proof.Machine

/-- `x[i]` (00_scope.md R10). -/
def Regs.get (x : Regs) : Reg → Bits32
  | .a => x.a
  | .b => x.b
  | .c => x.c
  | .d => x.d

/-- `x[i] <- v` (00_scope.md R10). -/
def Regs.set (x : Regs) (r : Reg) (v : Bits32) : Regs :=
  match r with
  | .a => { x with a := v }
  | .b => { x with b := v }
  | .c => { x with c := v }
  | .d => { x with d := v }

/-- `depth()` (00_scope.md R11). -/
def State.depth (s : State) : Nat := s.stack.length

/-- A push would make the depth greater than `STACK_DEPTH` (10_state.md R28). -/
def State.full (s : State) : Bool :=
  match s.params.stackDepth with
  | none => false
  | some n => decide (n ≤ s.depth)

/-- An instruction whose whole effect is to push a value (44_stack_register.md R142, R143). -/
def pushOperand (i : Instr) (v : Bits32) (s : State) : Result :=
  if s.full then .next (s.raise .stackOverflow 0)
  else .next (({ s with stack := v :: s.stack } : State).commit i)

/-- What an arithmetic operation gives: a result, or the exception it raises with the value 0. -/
inductive Alu where
  | value (v : Bits32)
  | trap (e : Exception)
  deriving DecidableEq, Repr

/-- The frame of the two-operand instructions (41_arithmetic.md R117): the stack is checked first; `b` is the top and `a` the
entry below it. -/
def binop (i : Instr) (f : Bits32 → Bits32 → Alu) (s : State) : Result :=
  match s.stack with
  | b :: a :: rest =>
    match f a b with
    | .value r => .next (({ s with stack := r :: rest } : State).commit i)
    | .trap e => .next (s.raise e 0)
  | _ => .next (s.raise .stackUnderflow 0)

end Sys2Proof.Machine
end

