-- ==== Sys2Proof/Machine/Flags.lean ====
section
/-! DEFINITION. The hardware has no flags (10_state.md R33): overflow sets none. What stands in their place is the range test
that decides ArithmeticOverflow in Trap mode (41_arithmetic.md R123). -/

namespace Sys2Proof.Machine

/-- An exact result lies in `[−2^31, 2^31 − 1]`. -/
def inRange (n : Int) : Bool := decide (-2 ^ 31 ≤ n ∧ n ≤ 2 ^ 31 - 1)

/-- An exact result narrowed to 32 bits, or ArithmeticOverflow (41_arithmetic.md R118–R120, R123). -/
def narrow (m : OverflowMode) (n : Int) : Alu :=
  match m with
  | .wrap => .value (bits32 n)
  | .trap => if inRange n then .value (bits32 n) else .trap .arithmeticOverflow

end Sys2Proof.Machine
end

