-- ==== Sys2Proof/Machine/Arithmetic.lean ====
section
/-! DEFINITION. The `alu_stackmachine` block: ADD, SUB, MUL, DIV, MOD (41_arithmetic.md). -/

namespace Sys2Proof.Machine

/-- `a + b` (R118). -/
def aluAdd (m : OverflowMode) (a b : Bits32) : Alu := narrow m (sint a + sint b)

/-- `a − b` (R119). -/
def aluSub (m : OverflowMode) (a b : Bits32) : Alu := narrow m (sint a - sint b)

/-- `a × b` (R120). -/
def aluMul (m : OverflowMode) (a b : Bits32) : Alu := narrow m (sint a * sint b)

/-- The checks DIV and MOD share: zero first (R124), then INT_MIN by −1 (R125), whose Wrap result is `corner`. -/
def divisionChecks (m : OverflowMode) (a b corner result : Bits32) : Alu :=
  if sint b = 0 then .trap .divisionByZero
  else if a = intMin ∧ sint b = -1 then
    match m with
    | .wrap => .value corner
    | .trap => .trap .arithmeticOverflow
  else .value result

/-- `a / b`, truncated toward zero (R121, 00_scope.md R15). -/
def aluDiv (m : OverflowMode) (a b : Bits32) : Alu :=
  divisionChecks m a b intMin (bits32 ((sint a).tdiv (sint b)))

/-- The remainder of the truncated division (R122, 00_scope.md R15). -/
def aluMod (m : OverflowMode) (a b : Bits32) : Alu :=
  divisionChecks m a b 0 (bits32 ((sint a).tmod (sint b)))

/-- ADD (R118). -/
def execAdd (s : State) : Result := binop .add (aluAdd s.params.overflow) s

/-- SUB (R119). -/
def execSub (s : State) : Result := binop .sub (aluSub s.params.overflow) s

/-- MUL (R120). -/
def execMul (s : State) : Result := binop .mul (aluMul s.params.overflow) s

/-- DIV (R121). -/
def execDiv (s : State) : Result := binop .div (aluDiv s.params.overflow) s

/-- MOD (R122). -/
def execMod (s : State) : Result := binop .mod (aluMod s.params.overflow) s

end Sys2Proof.Machine
end

