-- ==== Sys2Proof/Machine/Control.lean ====
section
/-! DEFINITION. HALT (43_halt.md R140). There is no other control instruction (R141). -/

namespace Sys2Proof.Machine

/-- HALT (R140): the pc advances like that of every instruction that completes, and the run is over. -/
def execHalt (s : State) : Result := .next { s.commit .halt with runState := .halted }

end Sys2Proof.Machine
end

