-- ==== Sys2Proof/Machine/Ports.lean ====
section
/-! DEFINITION. The two ports (42_io.md R128, R129). A transaction is one indivisible event with its answer (20_memory.md
R54); until the host answers, the core waits with the transaction open (R138). -/

namespace Sys2Proof.Machine

/-- `OutWrite(s)` (R128): the host's answer, recorded in the trace (R139), goes to `onAnswer`; with no answer yet the core
waits. -/
def outWrite (text : Text) (onAnswer : OutAnswer → State → Result) (s : State) : Result :=
  match s.outAnswers with
  | [] => .next s
  | none :: later => .next { s with outAnswers := later }
  | some a :: later => onAnswer a { s with outAnswers := later, trace := s.trace ++ [.out text a] }

/-- `InRead()` (R129), likewise. -/
def inRead (onAnswer : InAnswer → State → Result) (s : State) : Result :=
  match s.inAnswers with
  | [] => .next s
  | none :: later => .next { s with inAnswers := later }
  | some a :: later => onAnswer a { s with inAnswers := later, trace := s.trace ++ [.inp a] }

end Sys2Proof.Machine
end

