-- ==== Sys2Proof/Machine/Text.lean ====
section
/-! DEFINITION. Numbers as text: `dec(v)` (00_scope.md R16), the decimal grammar (30_encoding.md R90) and `parseInt32`
(42_io.md R131). Character codes are ASCII (93_implementation_defined.md G2, G3, G6). -/

namespace Sys2Proof.Machine

/-- The bytes of ASCII characters. -/
def ascii (cs : List Char) : Text := cs.map fun c => BitVec.ofNat 8 c.toNat

/-- LF. -/
def lf : Byte := 0x0A

/-- CR. -/
def cr : Byte := 0x0D

/-- `-`. -/
def minus : Byte := 0x2D

/-- `+`. -/
def plus : Byte := 0x2B

/-- A digit's character. -/
def digitChar (n : Nat) : Byte := BitVec.ofNat 8 (0x30 + n)

/-- The decimal digits of a number, no leading zeros; `fuel` bounds their count less one. -/
def decDigits : Nat → Nat → Text
  | 0, n => [digitChar n]
  | fuel + 1, n => if n < 10 then [digitChar n] else decDigits fuel (n / 10) ++ [digitChar (n % 10)]

/-- `dec(v)` (R16). A 32-bit value has at most ten digits. -/
def dec (v : Bits32) : Text :=
  if sint v < 0 then minus :: decDigits 9 (sint v).natAbs else decDigits 9 (sint v).natAbs

/-- Space, HT, VT, FF, CR (30_encoding.md R87, 42_io.md R131). -/
def isSpace (b : Byte) : Bool := b = 0x20 || b = 0x09 || b = 0x0B || b = 0x0C || b = 0x0D

/-- An ASCII digit's value. -/
def digitValue (b : Byte) : Option Nat :=
  if 0x30 ≤ b.toNat ∧ b.toNat ≤ 0x39 then some (b.toNat - 0x30) else none

/-- The value of a run of digits, after the value of the digits before it. -/
def digitsValueFrom (acc : Nat) : Text → Option Nat
  | [] => some acc
  | b :: t =>
    match digitValue b with
    | some d => digitsValueFrom (10 * acc + d) t
    | none => none

/-- The value of one or more digits. -/
def digitsValue : Text → Option Nat
  | [] => none
  | t => digitsValueFrom 0 t

/-- An optional sign, then one or more digits (30_encoding.md R90). -/
def signedValue : Text → Option Int
  | [] => none
  | b :: t =>
    if b = minus then (digitsValue t).map fun (n : Nat) => -(n : Int)
    else if b = plus then (digitsValue t).map fun (n : Nat) => (n : Int)
    else (digitsValue (b :: t)).map fun (n : Nat) => (n : Int)

/-- A signed decimal integer in the 32-bit range (30_encoding.md R90). -/
def parseDecimal (t : Text) : Option Bits32 :=
  match signedValue t with
  | some n => if -2 ^ 31 ≤ n ∧ n ≤ 2 ^ 31 - 1 then some (bits32 n) else none
  | none => none

/-- The text without leading and trailing whitespace. -/
def trim (t : Text) : Text := ((t.dropWhile isSpace).reverse.dropWhile isSpace).reverse

/-- `parseInt32` (42_io.md R131): the decimal grammar after trimming. -/
def parseInt32 (t : Text) : Option Bits32 := parseDecimal (trim t)

end Sys2Proof.Machine
end

