-- ==== Sys2Proof/Machine/InputOutput.lean ====
section
/-! DEFINITION. INPUT and OUTPUT (42_io.md R130–R136). One step makes at most one port transaction (log 5): INPUT goes through
its loop one transaction at a time, and `awaiting` says which one is open. -/

namespace Sys2Proof.Machine

/-- `n` rejected lines are more than MAX_INPUT_RETRIES: the number of lines is tested, not the saturated RETRY_COUNT, so any
finite limit can be passed (R132, 92_eei_decisions.md D16, 70_reset_and_hazards.md R184; log 16). -/
def State.retriesExceeded (n : Nat) (s : State) : Bool :=
  match s.params.maxInputRetries with
  | none => false
  | some k => decide (k < n)

/-- A line that is no integer: counted, then the retry message or InputError(3) (R130, R132). -/
def inputRejected (s : State) : Result :=
  if s.retriesExceeded (s.rejected + 1) then .next (s.raise .inputError 3)
  else .next { s with rejected := s.rejected + 1, awaiting := some .retry }

/-- The value read: pushed, and INPUT completes (R130). -/
def inputAccepted (v : Bits32) (s : State) : Result :=
  .next (({ s with stack := v :: s.stack, waitInput := false, rejected := 0, awaiting := none } : State).commit .input)

/-- INPUT after the host's answer to its line read (R130, R133, R136). -/
def inputAnswered (a : InAnswer) (s : State) : Result :=
  match a with
  | .err => .next (s.raise .inputError 1)
  | .eof => .next (s.raise .inputError 2)
  | .line t =>
    match parseInt32 t with
    | some v => inputAccepted v s
    | none => inputRejected s

/-- INPUT after the host's answer to its prompt or its retry message: on to the line read, or OutputError(1) (R130, R136). -/
def inputWritten (a : OutAnswer) (s : State) : Result :=
  match a with
  | .ok => .next { s with awaiting := some .line }
  | .err => .next (s.raise .outputError 1)

/-- INPUT's first step: the stack-full check before any I/O (92_eei_decisions.md D19), then the prompt (R130). -/
def inputBegin (s : State) : Result :=
  if s.full then .next (s.raise .stackOverflow 0)
  else
    outWrite s.params.promptText inputWritten
      { s with waitInput := true, rejected := 0, awaiting := some .prompt }

/-- INPUT (R130): the transaction that is open, or its first step. -/
def execInput (s : State) : Result :=
  match s.awaiting with
  | some .prompt => outWrite s.params.promptText inputWritten s
  | some .line => inRead inputAnswered s
  | some .retry => outWrite s.params.retryText inputWritten s
  | some .value | none => inputBegin s

/-- The text OUTPUT writes (R135). -/
def outputText (v : Bits32) : Text := dec v ++ [lf]

/-- OUTPUT after the host's answer: the pop is committed, or OutputError(1) and nothing is (R134). -/
def outputAnswered (rest : List Bits32) (a : OutAnswer) (s : State) : Result :=
  match a with
  | .ok => .next (({ s with stack := rest, awaiting := none } : State).commit .output)
  | .err => .next (s.raise .outputError 1)

/-- OUTPUT (R134). -/
def execOutput (s : State) : Result :=
  match s.stack with
  | [] => .next (s.raise .stackUnderflow 0)
  | v :: rest => outWrite (outputText v) (outputAnswered rest) { s with awaiting := some .value }

end Sys2Proof.Machine
end

