-- ==== Sys2Proof/Machine/Transfer.lean ====
section
/-! DEFINITION. PUSH imm, PUSH reg and POP reg (44_stack_register.md R142–R144). -/

namespace Sys2Proof.Machine

/-- PUSH imm (R142). -/
def execPushImm (v : Bits32) (s : State) : Result := pushOperand (.pushImm v) v s

/-- PUSH reg (R143). -/
def execPushReg (r : Reg) (s : State) : Result := pushOperand (.pushReg r) (s.x.get r) s

/-- POP reg (R144). -/
def execPopReg (r : Reg) (s : State) : Result :=
  match s.stack with
  | [] => .next (s.raise .stackUnderflow 0)
  | v :: rest => .next (({ s with stack := rest, x := s.x.set r v } : State).commit (.popReg r))

end Sys2Proof.Machine
end

