-- ==== Sys2Proof/Machine/Cycle.lean ====
section
/-! DEFINITION. The `execute_pipeline` block: the step of 40_execution_cycle.md R116, with the host's control inputs around it
(R101, R109, R110, 70_reset_and_hazards.md R170). -/

namespace Sys2Proof.Machine

/-- Fetch, decode, execute, commit (R102–R106). An instruction that waits on a port is fetched again at its own pc, which
changes nothing (20_memory.md R54), and goes on with its open transaction. -/
def State.runInstruction (s : State) : Result :=
  match s.fetch with
  | .endOfProgram => .next { s with runState := .ended }
  | .instr i => exec i s
  | .malformed e => .next (s.raiseDecode e)
  | .outside => .fault .fetchOutsideProgram

/-- `cancel` is sampled at the start of a step, not inside an instruction (R110). -/
def State.takesCancel (c : Signals) (s : State) : Bool := c.cancel && s.awaiting.isNone

/-- A step under the control inputs `c`: `rst` in any state, `start` in IDLE only, `cancel` between the instructions of a
run; a core whose run is over has no step of its own and keeps everything (R109). -/
def State.cycle (c : Signals) (s : State) : Result :=
  if c.rst then .next s.rst
  else
    match s.runState with
    | .idle =>
      match c.start with
      | some m => .next (s.started m)
      | none => .next s
    | .running => if s.takesCancel c then .next { s with runState := .cancelled } else s.runInstruction
    | .halted | .ended | .faulted | .cancelled => .next s

/-- The host's control inputs with `rst`, `start` and `cancel` of the coming step dropped. -/
def quietNext (c : List Signals) : List Signals :=
  match c with
  | [] => []
  | _ :: later => {} :: later

/-- The offset at which bytes are placed for the next fetch: `pc`, or 0 where `pc` leaves no room below the largest
`PROG_LEN` (log 14). -/
def State.placeAt (bytes : List Byte) (s : State) : Bits32 :=
  if s.pc.toNat + bytes.length < 2 ^ 32 then s.pc else 0

/-- The state with bytes placed where the next step fetches, and that step an instruction's first in byte mode (log 14). -/
def State.withFetchBytes (bytes : List Byte) (s : State) : State :=
  { s with
    mem := Memory.place s.mem (s.placeAt bytes).toNat bytes
    progLen := BitVec.ofNat 32 (max s.progLen.toNat ((s.placeAt bytes).toNat + bytes.length))
    pc := s.placeAt bytes
    mode := .byte
    runState := .running
    awaiting := none
    waitInput := false
    rejected := 0
    control := quietNext s.control }

end Sys2Proof.Machine
end

