-- ==== Sys2Proof/Machine/Step.lean ====
section
/-! DEFINITION. The machine's step: this step's control inputs are taken, and the core makes its cycle under them. -/

namespace Sys2Proof.Machine

/-- One step. -/
def step (s : State) : Host.Outcome State Fault Refusal := s.tick.cycle s.signals

/-- `s` with a word of the opcode table placed where the next step fetches its instruction. -/
def State.withFetchWord (s : State) (nbits w : Nat) : State := s.withFetchBytes (bytesOfTableWord nbits w)

end Sys2Proof.Machine
end

