-- ==== Sys2Proof/Machine/Assembly.lean ====
section
/-! DEFINITION. The assembly text of 30_encoding.md section 7 (R86–R99): toolchain, not hardware (00_scope.md R4; log 20). -/

namespace Sys2Proof.Machine

/-- The error of one line (R99): an unknown mnemonic or argument count (R92), or a bad argument (R93). -/
inductive LineError where
  | unknownOperation (token : Text) (count : Nat)
  | malformedArgument (mnemonic : Text) (position : Text) (text : Text)
  deriving DecidableEq, Repr

/-! Lines and tokens. -/

/-- A line without the CR that belongs to its terminator (R86). -/
def dropFinalCr (line : Text) : Text := if line.getLast? = some cr then line.dropLast else line

/-- The lines of a text, `line` being what the current line holds so far (R86). A last line without LF is a line; a final LF
starts no extra line. -/
def splitLinesFrom (line : Text) : Text → List Text
  | [] => if line = [] then [] else [line]
  | b :: t => if b = lf then dropFinalCr line :: splitLinesFrom [] t else splitLinesFrom (line ++ [b]) t

/-- The lines of a text (R86). -/
def splitLines (t : Text) : List Text := splitLinesFrom [] t

/-- A token's place in front of the tokens after it, if it holds anything. -/
def consToken (token : Text) (later : List Text) : List Text := if token = [] then later else token :: later

/-- The tokens of a line, `token` being what the current token holds so far (R87). -/
def tokensFrom (token : Text) : Text → List Text
  | [] => consToken token []
  | b :: t => if isSpace b then consToken token (tokensFrom [] t) else tokensFrom (token ++ [b]) t

/-- The tokens of a line: split at runs of whitespace (R87). -/
def tokens (line : Text) : List Text := tokensFrom [] line

/-- ASCII a–z to A–Z (R87). -/
def upperByte (b : Byte) : Byte := if 0x61 ≤ b.toNat ∧ b.toNat ≤ 0x7A then b - 0x20 else b

/-- A token in upper case (R87). -/
def upper (t : Text) : Text := t.map upperByte

/-! Mnemonics and arguments. -/

/-- `PUSH`. -/
def pushWord : Text := ascii ['P', 'U', 'S', 'H']

/-- `POP`. -/
def popWord : Text := ascii ['P', 'O', 'P']

/-- The mnemonic of a kind (R88). -/
def mnemonic : Kind → Text
  | .add => ascii ['A', 'D', 'D']
  | .sub => ascii ['S', 'U', 'B']
  | .mul => ascii ['M', 'U', 'L']
  | .div => ascii ['D', 'I', 'V']
  | .mod => ascii ['M', 'O', 'D']
  | .input => ascii ['I', 'N', 'P', 'U', 'T']
  | .output => ascii ['O', 'U', 'T', 'P', 'U', 'T']
  | .halt => ascii ['H', 'A', 'L', 'T']
  | .pushImm => pushWord
  | .pushReg => pushWord
  | .popReg => popWord

/-- The instructions written without an argument (R88). -/
def nullaryInstrs : List Instr := [.add, .sub, .mul, .div, .mod, .input, .output, .halt]

/-- The nullary instruction of a mnemonic (R88). -/
def nullaryOf (word : Text) : Option Instr := nullaryInstrs.find? fun i => mnemonic i.kind = word

/-- A register's letter (R91, R96). -/
def regLetter : Reg → Byte
  | .a => 0x41
  | .b => 0x42
  | .c => 0x43
  | .d => 0x44

/-- A register name: one letter A to D, in either case (R91). -/
def parseReg (t : Text) : Option Reg :=
  [Reg.a, Reg.b, Reg.c, Reg.d].find? fun r => upper t = [regLetter r]

/-- The ordinal suffix of a number (R93). -/
def ordinalSuffix (n : Nat) : Text :=
  if 11 ≤ n % 100 ∧ n % 100 ≤ 13 then ascii ['t', 'h']
  else if n % 10 = 1 then ascii ['s', 't']
  else if n % 10 = 2 then ascii ['n', 'd']
  else if n % 10 = 3 then ascii ['r', 'd']
  else ascii ['t', 'h']

/-- An ordinal: the number and its suffix (R93). -/
def ordinal (n : Nat) : Text := decDigits n n ++ ordinalSuffix n

/-- The argument of PUSH: an integer, else a register, else an error (R89). -/
def parsePushArg (arg : Text) : Except LineError Instr :=
  match parseDecimal arg with
  | some v => .ok (.pushImm v)
  | none =>
    match parseReg arg with
    | some r => .ok (.pushReg r)
    | none => .error (.malformedArgument pushWord (ordinal 1) arg)

/-- The argument of POP: a register, else an error (R91). -/
def parsePopArg (arg : Text) : Except LineError Instr :=
  match parseReg arg with
  | some r => .ok (.popReg r)
  | none => .error (.malformedArgument popWord (ordinal 1) arg)

/-- An operation from its upper-cased mnemonic and its arguments (R88–R93). -/
def parseOperation (word : Text) (args : List Text) : Except LineError Instr :=
  match args with
  | [] =>
    match nullaryOf word with
    | some i => .ok i
    | none => .error (.unknownOperation word 0)
  | [arg] =>
    if word = pushWord then parsePushArg arg
    else if word = popWord then parsePopArg arg
    else .error (.unknownOperation word 1)
  | _ => .error (.unknownOperation word args.length)

/-- One line: `none` where it is blank (R86–R88). -/
def parseLine (line : Text) : Option (Except LineError Instr) :=
  match tokens line with
  | [] => none
  | word :: args => some (parseOperation (upper word) args)

/-! Whole texts. -/

/-- What a parse has found so far: the Statements, or the errors once a line has failed (R94). -/
abbrev Parsed := Except (List (Nat × LineError)) Program

/-- A line's result in front of that of the lines after it: every line is attempted and all errors are kept (R94). -/
def consLine (n : Nat) (line : Option (Except LineError Instr)) (later : Parsed) : Parsed :=
  match line, later with
  | none, later => later
  | some (.ok i), .ok p => .ok (⟨i⟩ :: p)
  | some (.ok _), .error es => .error es
  | some (.error e), .ok _ => .error [(n, e)]
  | some (.error e), .error es => .error ((n, e) :: es)

/-- The lines from number `n` on. -/
def parseLines : Nat → List Text → Parsed
  | _, [] => .ok []
  | n, line :: later => consLine n (parseLine line) (parseLines (n + 1) later)

/-- Parse a text (R86–R94): a Program, or the errors by line number in ascending order. -/
def parse (t : Text) : Parsed := parseLines 1 (splitLines t)

/-- Assemble a text (R95). -/
def assemble (m : OpcodeMap) (t : Text) : Except (List (Nat × LineError)) (List Byte) :=
  match parse t with
  | .ok p => .ok (encodeProgram m p)
  | .error es => .error es

/-- A rendered argument (R96). -/
def renderArg : Instr → Text
  | .pushImm v => 0x20 :: dec v
  | .pushReg r => [0x20, regLetter r]
  | .popReg r => [0x20, regLetter r]
  | .add | .sub | .mul | .div | .mod | .input | .output | .halt => []

/-- A rendered line without its LF (R96). -/
def renderLine (i : Instr) : Text := mnemonic i.kind ++ renderArg i

/-- Render a Program: one line per Statement, each ended by LF (R96). -/
def render (p : Program) : Text := p.flatMap fun st => renderLine st.instr ++ [lf]

end Sys2Proof.Machine
end

