-- ==== Sys2Proof/Machine/HostMoves.lean ====
section
/-! DEFINITION. The host's moves (70_reset_and_hazards.md R174–R176). It provides the program and the parameters while the core
is IDLE; it answers transactions and drives `rst`, `start` and `cancel` at any time. There is no move that breaks a duty. -/

namespace Sys2Proof.Machine

/-- Provide the program bytes, in IDLE, at most 2^32 − 1 of them (R174, 00_scope.md R6). -/
def State.provideBytes (bytes : List Byte) (s : State) : State :=
  if s.runState = .idle ∧ bytes.length < 2 ^ 32 then
    { s with mem := Memory.ofBytes 0 bytes, progLen := BitVec.ofNat 32 bytes.length }
  else s

/-- Provide the decoded Program, in IDLE (R174). -/
def State.provideProgram (p : Program) (s : State) : State :=
  if s.runState = .idle ∧ p.wf then { s with program := p } else s

/-- Fix the parameters, in IDLE (R174). -/
def State.fixParams (p : Params) (s : State) : State :=
  if s.runState = .idle ∧ p.wf then { s with params := p } else s

/-- What the host gives at one more poll of an open input transaction (R176): an answer, or not yet. -/
def State.giveInput (a : Option InAnswer) (s : State) : State := { s with inAnswers := s.inAnswers ++ [a] }

/-- What the host gives at one more poll of an open output transaction (R176). -/
def State.giveOutput (a : Option OutAnswer) (s : State) : State := { s with outAnswers := s.outAnswers ++ [a] }

/-- The control inputs at one more step (R176). -/
def State.drive (c : Signals) (s : State) : State := { s with control := s.control ++ [c] }

end Sys2Proof.Machine
end

