-- ==== Sys2Proof/Machine/Observe.lean ====
section
/-! DEFINITION. What the host sees: the read-only observe port and `stack_peek` (10_state.md R40), and the transaction the core
offers at its ports (42_io.md R128, R129). -/

namespace Sys2Proof.Machine

/-- The number of a `STATE` (10_state.md R34). -/
def RunState.code : RunState → BitVec 3
  | .idle => 0
  | .running => 1
  | .halted => 2
  | .ended => 3
  | .faulted => 4
  | .cancelled => 5

/-- The bit of a `MODE` (10_state.md R35). -/
def Mode.code : Mode → BitVec 1
  | .byte => 0
  | .decoded => 1

/-- The `CAUSE` code of an exception (60_exceptions.md R148). -/
def Exception.code : Exception → BitVec 4
  | .endOfInput => 1
  | .wrongOpCode => 2
  | .wrongRegister => 3
  | .stackUnderflow => 4
  | .inputError => 5
  | .outputError => 6
  | .divisionByZero => 7
  | .stackOverflow => 8
  | .arithmeticOverflow => 9

/-- The `CAUSE` code; 0 is NONE (60_exceptions.md R148). -/
def causeCode : Option Exception → BitVec 4
  | none => 0
  | some e => e.code

/-- The STATUS register: `WAIT_INPUT`, `FAULT_INFO`, `CAUSE`, `MODE`, `STATE` from bit 16 down, zeros above (R40). -/
def State.status (s : State) : Bits32 :=
  (0#15) ++ (BitVec.ofBool s.waitInput) ++ s.faultInfo ++ causeCode s.cause ++ s.mode.code ++ s.runState.code

/-- The observe port (R40). Reserved numbers read 0. -/
def State.observe (s : State) (n : Byte) : Bits32 :=
  match n.toNat with
  | 0 => s.status
  | 1 => s.pc
  | 2 => s.faultPc
  | 3 => BitVec.ofNat 32 s.depth
  | 4 => s.x.a
  | 5 => s.x.b
  | 6 => s.x.c
  | 7 => s.x.d
  | 8 => s.retryCount
  | _ => 0

/-- `stack_peek(k)` with its valid bit (R40). -/
def State.stackPeek (s : State) (k : Bits32) : Bits32 × Bool :=
  match s.stack[k.toNat]? with
  | some v => (v, true)
  | none => (0, false)

/-- A transaction offered to the host. -/
inductive Request where
  | outWrite (s : Text)
  | inRead
  deriving DecidableEq, Repr

/-- The transaction the core waits on, if any. -/
def State.request (s : State) : Option Request :=
  match s.awaiting with
  | some .prompt => some (.outWrite s.params.promptText)
  | some .line => some .inRead
  | some .retry => some (.outWrite s.params.retryText)
  | some .value => (s.stack.head?).map fun v => .outWrite (outputText v)
  | none => none

end Sys2Proof.Machine
end

