-- ==== Sys2Proof/Safety.lean ====
section
/-! DEFINITION. What the statements are said in: the invariant of a run, who raises what, and what it is for two runs to agree. -/

namespace Sys2Proof

/-- The entries an instruction pops (`n_pop`, 10_state.md R26). -/
def Instr.pops : Instr → Nat
  | .add | .sub | .mul | .div | .mod => 2
  | .output | .popReg _ => 1
  | .input | .halt | .pushImm _ | .pushReg _ => 0

/-- The entries an instruction pushes (`n_push`, 10_state.md R26). -/
def Instr.pushes : Instr → Nat
  | .add | .sub | .mul | .div | .mod | .input | .pushImm _ | .pushReg _ => 1
  | .output | .halt | .popReg _ => 0

/-- The FAULT_INFO values a cause may carry (10_state.md R37). -/
def Machine.Exception.allowsInfo (e : Machine.Exception) (n : Byte) : Bool :=
  match e with
  | .endOfInput => 1 ≤ n.toNat && n.toNat ≤ 4
  | .wrongOpCode => 11 ≤ n.toNat
  | .wrongRegister => 4 ≤ n.toNat
  | .inputError => n = 1 || n = 2 || n = 3
  | .outputError => n = 1
  | .stackUnderflow | .divisionByZero | .stackOverflow | .arithmeticOverflow => n = 0

/-- The kinds that raise an execution error; a decode error comes from the fetch, not from an instruction
(60_exceptions.md R148). -/
def Machine.Exception.raisers : Machine.Exception → List Kind
  | .endOfInput | .wrongOpCode | .wrongRegister => []
  | .stackUnderflow => [.add, .sub, .mul, .div, .mod, .output, .popReg]
  | .inputError => [.input]
  | .outputError => [.input, .output]
  | .divisionByZero => [.div, .mod]
  | .stackOverflow => [.input, .pushImm, .pushReg]
  | .arithmeticOverflow => [.add, .sub, .mul, .div, .mod]

/-- The instruction raises the exception, and with that FAULT_INFO (60_exceptions.md R148, 10_state.md R37). -/
def Instr.raises (i : Instr) (e : Machine.Exception) (n : Byte) : Bool := e.raisers.contains i.kind && e.allowsInfo n

/-- Byte offset of Statement `k`: the lengths of the Statements before it (40_execution_cycle.md R111). -/
def Program.offset (p : Program) (k : Nat) : Nat := ((p.take k).map fun st => st.instr.length).sum

end Sys2Proof

namespace Sys2Proof.Machine

/-- The outcome with its next state changed by `f`. -/
def mapNext (f : State → State) : Result → Result
  | .next s => .next (f s)
  | .fault r => .fault r
  | .refused r => .refused r

/-- Where the program ends: `PROG_LEN` in byte mode, `PROG_COUNT` in decoded mode (40_execution_cycle.md R104). -/
def State.progEnd (s : State) : Nat :=
  match s.mode with
  | .byte => s.progLen.toNat
  | .decoded => s.program.length

/-- INPUT is in progress: it has begun its first port transaction (10_state.md R39). -/
def Awaiting.ofInput : Option Awaiting → Bool
  | some .prompt | some .line | some .retry => true
  | some .value | none => false

/-- The fault record is there in FAULTED only, names the pc, and its info fits its cause (10_state.md R36–R38). -/
def State.faultRecordOk (s : State) : Bool :=
  match s.cause with
  | some e => s.runState = .faulted && s.faultPc = s.pc && e.allowsInfo s.faultInfo
  | none => s.runState ≠ .faulted && s.faultInfo = 0 && s.faultPc = 0

/-- `WAIT_INPUT` is 1 while INPUT is in progress, and `RETRY_COUNT` is 0 outside it (10_state.md R39, C13). -/
def State.hiddenOk (s : State) : Bool :=
  s.waitInput = Awaiting.ofInput s.awaiting && (s.waitInput || s.rejected = 0)

/-- An open transaction belongs to the INPUT or OUTPUT at the pc of a running core, past its stack check. -/
def State.awaitingOk (s : State) : Bool :=
  match s.awaiting with
  | none => true
  | some .value => s.runState = .running && s.fetch = .instr .output && s.stack ≠ []
  | some .prompt | some .line | some .retry =>
    s.runState = .running && s.fetch = .instr .input && s.full = false

/-- The depth is at most `STACK_DEPTH` (10_state.md R25). -/
def State.depthOk (s : State) : Bool :=
  match s.params.stackDepth with
  | none => true
  | some n => s.depth ≤ n

/-- The answers a host gives through a queue, the polls without one left out (log 6). -/
def answersIn {α : Type} (q : List (Option α)) : Nat := q.countP Option.isSome

/-- The polls of a queue at which the host has no answer yet (log 6). -/
def pausesIn {α : Type} (q : List (Option α)) : Nat := q.countP Option.isNone

/-- A line INPUT rejects (42_io.md R131). -/
def InAnswer.isBadLine : InAnswer → Bool
  | .line t => (parseInt32 t).isNone
  | .eof | .err => false

/-- The bad lines the host has yet to send. -/
def State.badLines (s : State) : Nat := s.inAnswers.countP fun a => a.any InAnswer.isBadLine

/-- The invariant of the machine. -/
structure State.Inv (s : State) : Prop where
  /-- the program bytes are in canonical form -/
  memCanonical : s.mem.wf = true
  /-- and lie below `PROG_LEN` -/
  memBelow : ∀ c ∈ s.mem, c.1 < s.progLen.toNat
  /-- the parameters and the Program are what a host may provide (70_reset_and_hazards.md R174) -/
  paramsWf : s.params.wf = true
  programWf : Program.wf s.program = true
  /-- the pc is at most the end of the program (10_state.md R32) -/
  pcBound : s.pc.toNat ≤ s.progEnd
  /-- the stack holds at most one entry for each byte or Statement passed -/
  depthByPc : s.depth ≤ s.pc.toNat
  depth : s.depthOk = true
  faultRecord : s.faultRecordOk = true
  hidden : s.hiddenOk = true
  /-- the lines rejected so far are within `MAX_INPUT_RETRIES` (42_io.md R132) -/
  retries : s.retriesExceeded s.rejected = false
  awaiting : s.awaitingOk = true
  /-- IDLE is the reset state (40_execution_cycle.md R101) -/
  idle : s.runState = .idle → s.rst = s

/-- The core makes a step of its own: it is RUNNING, `rst` is not asserted, and `cancel` is not asserted at an instruction
boundary (40_execution_cycle.md R102, R103, R110). -/
def State.executes (s : State) : Prop :=
  s.runState = .running ∧ s.signals.rst = false ∧ (s.signals.cancel = false ∨ s.awaiting ≠ none)

/-- What no instruction writes (10_state.md R41, R43): the program, byte by byte, the parameters, `MODE` and the host's
control inputs. -/
structure SameEnvironment (s t : State) : Prop where
  bytes : ∀ a, t.mem.read a = s.mem.read a
  mem : t.mem = s.mem
  progLen : t.progLen = s.progLen
  program : t.program = s.program
  params : t.params = s.params
  mode : t.mode = s.mode
  control : t.control = s.control

/-- No port transaction was made and no answer of the host taken. -/
structure SamePorts (s t : State) : Prop where
  trace : t.trace = s.trace
  inAnswers : t.inAnswers = s.inAnswers
  outAnswers : t.outAnswers = s.outAnswers

/-- The status fields of a run that goes on are as they were (10_state.md R34–R39). -/
structure SameStatus (s t : State) : Prop where
  runState : t.runState = s.runState
  cause : t.cause = s.cause
  faultInfo : t.faultInfo = s.faultInfo
  faultPc : t.faultPc = s.faultPc

/-- The INPUT state and the open transaction are as they were (10_state.md R39). -/
structure SameInputState (s t : State) : Prop where
  waitInput : t.waitInput = s.waitInput
  rejected : t.rejected = s.rejected
  awaiting : t.awaiting = s.awaiting

/-- A byte-mode state and a decoded-mode state that agree (40_execution_cycle.md R111): the same registers, stack, STATE,
CAUSE, FAULT_INFO, hidden INPUT state, port transactions and host inputs, with the pc and FAULT_PC of the one at the byte
offset of the Statement the other is at. -/
structure Agree (b d : State) : Prop where
  x : b.x = d.x
  stack : b.stack = d.stack
  runState : b.runState = d.runState
  cause : b.cause = d.cause
  faultInfo : b.faultInfo = d.faultInfo
  waitInput : b.waitInput = d.waitInput
  rejected : b.rejected = d.rejected
  awaiting : b.awaiting = d.awaiting
  trace : b.trace = d.trace
  inAnswers : b.inAnswers = d.inAnswers
  outAnswers : b.outAnswers = d.outAnswers
  control : b.control = d.control
  pc : b.pc.toNat = Program.offset d.program d.pc.toNat
  faultPc : b.faultPc.toNat = Program.offset d.program d.faultPc.toNat

end Sys2Proof.Machine
end

