-- ==== Sys2Proof/Certificates/Slice0/Obligations.lean ====
section
/-! DEFINITION. The statements for the provers, from the numbered rules of spec/. A statement quantified over every `State` is
quantified over every parameter of 00_scope.md R6, every program, every host answer and every control input. -/

open Sys2Proof Sys2Proof.Machine

/-! ## Encoding -/

/-- Words written out from 30_encoding.md R64–R69 and 95_test_vectors.md 2.1. -/
def Obligations.DecodeWordsOfTheTable : Prop :=
  decodeInstruction OpcodeMap.default [0] = .ok (.add, 1) ∧
  decodeInstruction OpcodeMap.default [4] = .ok (.mod, 1) ∧
  decodeInstruction OpcodeMap.default [5] = .ok (.input, 1) ∧
  decodeInstruction OpcodeMap.default [6] = .ok (.output, 1) ∧
  decodeInstruction OpcodeMap.default [7, 255] = .ok (.halt, 1) ∧
  decodeInstruction OpcodeMap.default [8, 0x12, 0x34, 0x56, 0x78, 99] = .ok (.pushImm 0x12345678, 5) ∧
  decodeInstruction OpcodeMap.default [9, 3] = .ok (.pushReg .d, 2) ∧
  decodeInstruction OpcodeMap.default [10, 1] = .ok (.popReg .b, 2) ∧
  decodeTableWord 40 0x0880000000 = some (.pushImm 0x80000000) ∧
  decodeTableWord 16 0x0902 = some (.pushReg .c)

/-- 30_encoding.md R80, for every opcode map: decode after encode for each unit, with the bytes consumed; the lengths; and the
converse, that a decoded instruction encodes to the bytes it was read from. -/
def Obligations.RoundTripLaws : Prop :=
  ∀ m : OpcodeMap, m.wf = true →
    (∀ v rest, decodeValue (encodeValue v ++ rest) = .ok (v, (encodeValue v).length)) ∧
    (∀ r rest, decodeRegister (encodeRegister r ++ rest) = .ok (r, (encodeRegister r).length)) ∧
    (∀ i rest, decodeInstruction m (encodeInstruction m i ++ rest) = .ok (i, (encodeInstruction m i).length)) ∧
    (∀ i, decodeProgram m (encodeInstruction m i) = .ok [⟨i⟩]) ∧
    (∀ p, decodeProgram m (encodeProgram m p) = .ok p) ∧
    (∀ v, (encodeValue v).length = 4) ∧
    (∀ r, (encodeRegister r).length = 1) ∧
    (∀ i, (encodeInstruction m i).length = i.length ∧ (i.length = 1 ∨ i.length = 2 ∨ i.length = 5)) ∧
    (∀ bytes i n, decodeInstruction m bytes = .ok (i, n) → encodeInstruction m i = bytes.take n)

/-- 30_encoding.md R74: exactly one result for any bytes, and it depends on no byte beyond those the rule names. -/
def Obligations.DecodeInstructionTotal : Prop :=
  ∀ m : OpcodeMap, m.wf = true → ∀ bytes : List Byte,
    ((∃ i n, decodeInstruction m bytes = .ok (i, n) ∧ (n = 1 ∨ n = 2 ∨ n = 5) ∧ n ≤ bytes.length ∧
        decodeInstruction m (bytes.take n) = .ok (i, n)) ∨
      decodeInstruction m bytes = .error .endOfInput ∨
      (∃ b, decodeInstruction m bytes = .error (.wrongOpCode b) ∧ 11 ≤ b.toNat ∧
        decodeInstruction m (bytes.take 1) = .error (.wrongOpCode b)) ∨
      (∃ b, decodeInstruction m bytes = .error (.wrongRegister b) ∧ 4 ≤ b.toNat ∧
        decodeInstruction m (bytes.take 2) = .error (.wrongRegister b))) ∧
    decodeInstruction m (bytes.take 5) = decodeInstruction m bytes

/-- 30_encoding.md R73 under the opcode numbers of R69: when each decode error is given, and in which order they are found. -/
def Obligations.DecodeErrorsExactly : Prop :=
  ∀ bytes : List Byte,
    (decodeInstruction OpcodeMap.default bytes = .error .endOfInput ↔
      bytes = [] ∨ (bytes[0]? = some 8 ∧ bytes.length < 5) ∨
        ((bytes[0]? = some 9 ∨ bytes[0]? = some 10) ∧ bytes.length < 2)) ∧
    (∀ b, decodeInstruction OpcodeMap.default bytes = .error (.wrongOpCode b) ↔ bytes[0]? = some b ∧ 10 < b.toNat) ∧
    (∀ b, decodeInstruction OpcodeMap.default bytes = .error (.wrongRegister b) ↔
      (bytes[0]? = some 9 ∨ bytes[0]? = some 10) ∧ bytes[1]? = some b ∧ 3 < b.toNat)

/-- 30_encoding.md R75: the empty input decodes to the empty Program; otherwise the first instruction, then the rest, and the
first error is the result. -/
def Obligations.DecodeProgramFailFast : Prop :=
  ∀ (m : OpcodeMap) (bytes : List Byte),
    decodeProgram m [] = .ok [] ∧
    (∀ e, decodeInstruction m bytes = .error e → bytes ≠ [] → decodeProgram m bytes = .error e) ∧
    (∀ i n e, decodeInstruction m bytes = .ok (i, n) → decodeProgram m (bytes.drop n) = .error e →
      decodeProgram m bytes = .error e) ∧
    (∀ i n p, decodeInstruction m bytes = .ok (i, n) → decodeProgram m (bytes.drop n) = .ok p →
      decodeProgram m bytes = .ok (⟨i⟩ :: p))

/-! ## The step -/

/-- 40_execution_cycle.md R102, R103, R105: when the bytes at the pc decode to an instruction (or the entry at the pc holds
one), the step is `exec` of it, after the control inputs of the step are taken. -/
def Obligations.StepRunsTheDecodedInstruction : Prop :=
  ∀ s : State, s.executes →
    (∀ i n, s.mode = .byte → s.pc.toNat < s.progLen.toNat → decodeInstruction s.params.opcodes s.window = .ok (i, n) →
      step s = exec i { s with control := s.control.tail }) ∧
    (∀ st, s.mode = .decoded → s.program[s.pc.toNat]? = some st →
      step s = exec st.instr { s with control := s.control.tail })

/-- 20_memory.md R53: the fetch window is the program bytes at `pc .. pc + 4` that exist, `avail` of them. -/
def Obligations.WindowIsTheProgramBytes : Prop :=
  ∀ s : State, s.window = (s.programBytes.drop s.pc.toNat).take 5 ∧ s.window.length = s.avail ∧
    s.avail = min 5 (s.progLen.toNat - s.pc.toNat)

/-- 40_execution_cycle.md R104: a fetch at the end of the program sets STATE to ENDED and changes nothing else. -/
def Obligations.RunningOffTheEndEnds : Prop :=
  ∀ s : State, s.executes →
    ((s.mode = .byte ∧ s.pc = s.progLen) ∨ (s.mode = .decoded ∧ s.pc.toNat = s.program.length)) →
    step s = .next { s with runState := .ended, control := s.control.tail }

/-- 60_exceptions.md R149: EndOfInput at a byte-mode fetch exactly when `0 < PROG_LEN − pc < len`, `len` the length the opcode
byte demands; FAULT_INFO is the number of bytes present. -/
def Obligations.EndOfInputAtFetch : Prop :=
  ∀ s : State, s.executes → s.params.opcodes = OpcodeMap.default → s.mode = .byte → s.cause = none →
    s.pc.toNat ≤ s.progLen.toNat →
    (∀ k, OpcodeMap.default.kindOf (s.mem.read s.pc.toNat) = some k → s.pc.toNat < s.progLen.toNat →
      s.progLen.toNat - s.pc.toNat < k.length →
      step s = .next (s.tick.raise .endOfInput (BitVec.ofNat 8 (s.progLen.toNat - s.pc.toNat)))) ∧
    (∀ t, step s = .next t → t.cause = some .endOfInput →
      s.pc.toNat < s.progLen.toNat ∧
      ∃ k, OpcodeMap.default.kindOf (s.mem.read s.pc.toNat) = some k ∧ s.progLen.toNat - s.pc.toNat < k.length ∧
        t.faultInfo.toNat = s.progLen.toNat - s.pc.toNat)

/-- 60_exceptions.md R150: WrongOpCode at a byte-mode fetch exactly when the opcode byte is 11 to 255; FAULT_INFO is the byte. -/
def Obligations.WrongOpCodeAtFetch : Prop :=
  ∀ s : State, s.executes → s.params.opcodes.wf = true → s.mode = .byte → s.cause = none →
    s.pc.toNat < s.progLen.toNat →
    (11 ≤ (s.mem.read s.pc.toNat).toNat → step s = .next (s.tick.raise .wrongOpCode (s.mem.read s.pc.toNat))) ∧
    (∀ t, step s = .next t → t.cause = some .wrongOpCode →
      11 ≤ (s.mem.read s.pc.toNat).toNat ∧ t.faultInfo = s.mem.read s.pc.toNat)

/-- 60_exceptions.md R151: WrongRegister at a byte-mode fetch exactly when the opcode is 9 or 10 and the register byte at
`pc + 1` is 4 to 255; FAULT_INFO is the byte. -/
def Obligations.WrongRegisterAtFetch : Prop :=
  ∀ s : State, s.executes → s.params.opcodes = OpcodeMap.default → s.mode = .byte → s.cause = none →
    s.pc.toNat < s.progLen.toNat →
    ((s.mem.read s.pc.toNat = 9 ∨ s.mem.read s.pc.toNat = 10) → s.pc.toNat + 1 < s.progLen.toNat →
      4 ≤ (s.mem.read (s.pc.toNat + 1)).toNat →
      step s = .next (s.tick.raise .wrongRegister (s.mem.read (s.pc.toNat + 1)))) ∧
    (∀ t, step s = .next t → t.cause = some .wrongRegister →
      (s.mem.read s.pc.toNat = 9 ∨ s.mem.read s.pc.toNat = 10) ∧ s.pc.toNat + 1 < s.progLen.toNat ∧
      4 ≤ (s.mem.read (s.pc.toNat + 1)).toNat ∧ t.faultInfo = s.mem.read (s.pc.toNat + 1))

/-- 10_state.md R32: in a step of a RUNNING core the pc stays, or it advances by `len` of the instruction fetched at it without
wrapping, and the core is then RUNNING, or HALTED by HALT; where the step ends FAULTED, ENDED or CANCELLED the pc stays. -/
def Obligations.PcOnlyAdvancesByLen : Prop :=
  ∀ s t : State, s.Inv → s.runState = .running → s.signals.rst = false → step s = .next t →
    (t.pc = s.pc ∨
      ∃ i, s.fetch = .instr i ∧ t.pc = s.pc + s.len i ∧ t.pc.toNat = s.pc.toNat + (s.len i).toNat ∧
        (t.runState = .running ∨ (i = .halt ∧ t.runState = .halted))) ∧
    (t.runState = .faulted ∨ t.runState = .ended ∨ t.runState = .cancelled → t.pc = s.pc)

/-- 20_memory.md R51: no step writes program memory, decoded-instruction memory or a parameter. -/
def Obligations.ProgramMemoryIsReadOnly : Prop :=
  ∀ s t : State, step s = .next t →
    (∀ a, t.mem.read a = s.mem.read a) ∧ t.mem = s.mem ∧ t.progLen = s.progLen ∧ t.program = s.program ∧
    t.params = s.params

/-- 40_execution_cycle.md R109, 60_exceptions.md R161: once the run is over nothing but `rst` changes anything; the control
inputs of the step are all that is used up. -/
def Obligations.NothingChangesAfterTheEnd : Prop :=
  ∀ s : State, s.signals.rst = false →
    (s.runState = .halted ∨ s.runState = .ended ∨ s.runState = .faulted ∨ s.runState = .cancelled) →
    step s = .next { s with control := s.control.tail }

/-- 70_reset_and_hazards.md R170, R172: `rst` in any state, also while a transaction waits; the program, the parameters and the
host's streams are not touched. -/
def Obligations.ResetFromAnyState : Prop :=
  ∀ s : State, s.signals.rst = true →
    ∃ t, step s = .next t ∧ t.x = ⟨0, 0, 0, 0⟩ ∧ t.stack = [] ∧ t.pc = 0 ∧ t.runState = .idle ∧ t.mode = .byte ∧
      t.cause = none ∧ t.faultInfo = 0 ∧ t.faultPc = 0 ∧ t.waitInput = false ∧ t.retryCount = 0 ∧ t.rejected = 0 ∧
      t.awaiting = none ∧ t.mem = s.mem ∧ t.progLen = s.progLen ∧ t.program = s.program ∧ t.params = s.params ∧
      t.inAnswers = s.inAnswers ∧ t.outAnswers = s.outAnswers

/-- 10_state.md R42: the reset values, at State.reset. -/
def Obligations.ResetValues : Prop :=
  (∀ r, State.reset.x.get r = 0) ∧ State.reset.stack = [] ∧ State.reset.pc = 0 ∧ State.reset.runState = .idle ∧
  State.reset.mode = .byte ∧ State.reset.cause = none ∧ State.reset.faultInfo = 0 ∧ State.reset.faultPc = 0 ∧
  State.reset.waitInput = false ∧ State.reset.retryCount = 0 ∧ State.reset.rejected = 0 ∧
  (∀ n, State.reset.observe n = 0)

/-- 40_execution_cycle.md R101: `start(mode)` from IDLE latches the mode, sets RUNNING and leaves every other piece of state at
its reset value; in any other state it is ignored. The last clause, that an IDLE core without `start` and `rst` answers next and
keeps everything, is the model's reading (log 15). -/
def Obligations.StartOnlyFromIdle : Prop :=
  (∀ (s : State) (m : Mode), s.runState = .idle → s.signals.rst = false → s.signals.start = some m →
    ∃ t, step s = .next t ∧ t.mode = m ∧ t.runState = .running ∧ t.x = ⟨0, 0, 0, 0⟩ ∧ t.stack = [] ∧ t.pc = 0 ∧
      t.cause = none ∧ t.faultInfo = 0 ∧ t.faultPc = 0 ∧ t.waitInput = false ∧ t.retryCount = 0 ∧
      t.rejected = 0 ∧ t.awaiting = none ∧ t.mem = s.mem ∧ t.progLen = s.progLen ∧ t.program = s.program ∧ t.params = s.params) ∧
  (∀ (s : State) (c : Signals) (later : List Signals), s.runState ≠ .idle →
    step { s with control := c :: later } = step { s with control := { c with start := none } :: later }) ∧
  (∀ s : State, s.runState = .idle → s.signals.rst = false → s.signals.start = none →
    step s = .next { s with control := s.control.tail })

/-- 40_execution_cycle.md R110: `cancel` ends a RUNNING core between instructions and changes nothing else; inside an
instruction and in any other state it is not sampled. -/
def Obligations.CancelBetweenInstructions : Prop :=
  (∀ s : State, s.runState = .running → s.signals.rst = false → s.signals.cancel = true → s.awaiting = none →
    step s = .next { s with runState := .cancelled, control := s.control.tail }) ∧
  (∀ (s : State) (c : Signals) (later : List Signals), (s.runState ≠ .running ∨ s.awaiting ≠ none) →
    step { s with control := c :: later } = step { s with control := { c with cancel := false } :: later })

/-- 70_reset_and_hazards.md R185: the empty program ends at the first step after `start`, with the stack empty, the registers
at 0, the pc at 0 and no port transaction. -/
def Obligations.EmptyProgramEnds : Prop :=
  ∀ (s : State) (m : Mode), s.runState = .idle → (m = .byte ∧ s.progLen = 0 ∨ m = .decoded ∧ s.program = []) →
    s.signals.rst = false → s.signals.start = some m → s.tick.signals = {} →
    ∃ t, Host.Core.run Sys2Proof.core 2 s = .next t ∧ t.runState = .ended ∧ t.stack = [] ∧ t.x = ⟨0, 0, 0, 0⟩ ∧
      t.pc = 0 ∧ t.trace = [] ∧ t.inAnswers = s.inAnswers ∧ t.outAnswers = s.outAnswers

/-! ## Faults -/

/-- 60_exceptions.md R160: a step that faults writes the fault record and the hidden INPUT state and nothing else; registers,
stack and pc are as the instruction before left them. The port transaction it made, if any, stands. -/
def Obligations.FaultEntryIsPrecise : Prop :=
  ∀ s t : State, s.runState = .running → s.signals.rst = false → step s = .next t → t.runState = .faulted →
    ∃ e n, t = { s with
      runState := .faulted
      cause := some e
      faultInfo := n
      faultPc := s.pc
      waitInput := false
      rejected := 0
      awaiting := none
      control := s.control.tail
      trace := t.trace
      inAnswers := t.inAnswers
      outAnswers := t.outAnswers }

/-- 60_exceptions.md R148, 10_state.md R37: each decode error comes from a byte-mode fetch that met that error, with the bytes
left or the offending byte as FAULT_INFO; an execution error comes from an instruction the table gives for it, with the
FAULT_INFO the table gives, ArithmeticOverflow in Trap mode only. -/
def Obligations.ExceptionsByInstruction : Prop :=
  ∀ s t : State, ∀ e, s.runState = .running → s.signals.rst = false → s.cause = none → step s = .next t →
    t.cause = some e →
    (e = .endOfInput → s.mode = .byte ∧ s.fetch = .malformed .endOfInput ∧
      t.faultInfo = BitVec.ofNat 8 (s.progLen.toNat - s.pc.toNat)) ∧
    (e = .wrongOpCode → s.mode = .byte ∧ s.fetch = .malformed (.wrongOpCode t.faultInfo)) ∧
    (e = .wrongRegister → s.mode = .byte ∧ s.fetch = .malformed (.wrongRegister t.faultInfo)) ∧
    (e ≠ .endOfInput ∧ e ≠ .wrongOpCode ∧ e ≠ .wrongRegister →
      ∃ i, s.fetch = .instr i ∧ i.raises e t.faultInfo = true) ∧
    (e = .arithmeticOverflow → s.params.overflow = .trap)

/-- 60_exceptions.md R152, 41_arithmetic.md R117: an instruction that pops more entries than the stack holds raises
StackUnderflow, whatever its operands are; and only then is it raised. -/
def Obligations.StackUnderflowExactly : Prop :=
  ∀ (i : Instr) (s : State),
    (s.depth < i.pops → exec i s = .next (s.raise .stackUnderflow 0)) ∧
    (∀ t, s.cause = none → exec i s = .next t → t.cause = some .stackUnderflow → s.depth < i.pops)

/-- 60_exceptions.md R153: PUSH imm, PUSH reg and INPUT, before its prompt, raise StackOverflow on a full stack, with no port
transaction; and no instruction raises it otherwise, so none does with an unbounded stack. -/
def Obligations.StackOverflowExactly : Prop :=
  ∀ s : State,
    (∀ n, s.params.stackDepth = some n → s.depth = n →
      (∀ v, exec (.pushImm v) s = .next (s.raise .stackOverflow 0)) ∧
      (∀ r, exec (.pushReg r) s = .next (s.raise .stackOverflow 0)) ∧
      (s.awaiting = none → exec .input s = .next (s.raise .stackOverflow 0))) ∧
    (∀ i t, s.cause = none → exec i s = .next t → t.cause = some .stackOverflow →
      i.pops = 0 ∧ i.pushes = 1 ∧ ∃ n, s.params.stackDepth = some n ∧ n ≤ s.depth)

/-- 60_exceptions.md R154, 41_arithmetic.md R124: DIV and MOD by zero, with two entries on the stack. -/
def Obligations.DivisionByZeroRaised : Prop :=
  ∀ (s : State) (a : Bits32) (rest : List Bits32), s.stack = 0 :: a :: rest →
    exec .div s = .next (s.raise .divisionByZero 0) ∧ exec .mod s = .next (s.raise .divisionByZero 0)

/-- 60_exceptions.md R155: in Trap mode ADD, SUB and MUL raise ArithmeticOverflow when the exact result is out of range, DIV
and MOD for INT_MIN and −1; in Wrap mode no instruction raises it. -/
def Obligations.ArithmeticOverflowInTrapMode : Prop :=
  (∀ (i : Instr) (s t : State), s.params.overflow = .wrap → s.cause = none → exec i s = .next t →
    t.cause ≠ some .arithmeticOverflow) ∧
  ∀ (s : State) (a b : Bits32) (rest : List Bits32), s.stack = b :: a :: rest → s.params.overflow = .trap →
    (¬(-2 ^ 31 ≤ sint a + sint b ∧ sint a + sint b ≤ 2 ^ 31 - 1) →
      exec .add s = .next (s.raise .arithmeticOverflow 0)) ∧
    (¬(-2 ^ 31 ≤ sint a - sint b ∧ sint a - sint b ≤ 2 ^ 31 - 1) →
      exec .sub s = .next (s.raise .arithmeticOverflow 0)) ∧
    (¬(-2 ^ 31 ≤ sint a * sint b ∧ sint a * sint b ≤ 2 ^ 31 - 1) →
      exec .mul s = .next (s.raise .arithmeticOverflow 0)) ∧
    (sint a = -2 ^ 31 → sint b = -1 →
      exec .div s = .next (s.raise .arithmeticOverflow 0) ∧ exec .mod s = .next (s.raise .arithmeticOverflow 0))

/-! ## Arithmetic -/

/-- 41_arithmetic.md R118: ADD is opcode 0, `a + b`, `b` the top and `a` the entry below it. It completes in Wrap mode,
and in Trap mode when the exact result is in range; otherwise it raises ArithmeticOverflow; with fewer than two entries,
StackUnderflow. -/
def Obligations.AddCompletesOrRaises : Prop :=
  encode .add = [0] ∧
  (∀ s : State, s.depth < 2 → exec .add s = .next (s.raise .stackUnderflow 0)) ∧
  ∀ (s : State) (a b : Bits32) (rest : List Bits32), s.stack = b :: a :: rest →
    (s.params.overflow = .wrap ∨ (-2 ^ 31 ≤ sint a + sint b ∧ sint a + sint b ≤ 2 ^ 31 - 1) →
      exec .add s = .next { s with stack := bits32 (sint a + sint b) :: rest, pc := s.pc + s.len .add }) ∧
    (s.params.overflow = .trap → ¬(-2 ^ 31 ≤ sint a + sint b ∧ sint a + sint b ≤ 2 ^ 31 - 1) →
      exec .add s = .next (s.raise .arithmeticOverflow 0))

/-- 41_arithmetic.md R119: SUB is opcode 1, `a − b`, `b` the top and `a` the entry below it. It completes in Wrap mode,
and in Trap mode when the exact result is in range; otherwise it raises ArithmeticOverflow; with fewer than two entries,
StackUnderflow. -/
def Obligations.SubCompletesOrRaises : Prop :=
  encode .sub = [1] ∧
  (∀ s : State, s.depth < 2 → exec .sub s = .next (s.raise .stackUnderflow 0)) ∧
  ∀ (s : State) (a b : Bits32) (rest : List Bits32), s.stack = b :: a :: rest →
    (s.params.overflow = .wrap ∨ (-2 ^ 31 ≤ sint a - sint b ∧ sint a - sint b ≤ 2 ^ 31 - 1) →
      exec .sub s = .next { s with stack := bits32 (sint a - sint b) :: rest, pc := s.pc + s.len .sub }) ∧
    (s.params.overflow = .trap → ¬(-2 ^ 31 ≤ sint a - sint b ∧ sint a - sint b ≤ 2 ^ 31 - 1) →
      exec .sub s = .next (s.raise .arithmeticOverflow 0))

/-- 41_arithmetic.md R120: MUL is opcode 2, `a × b`, `b` the top and `a` the entry below it. It completes in Wrap mode,
and in Trap mode when the exact result is in range; otherwise it raises ArithmeticOverflow; with fewer than two entries,
StackUnderflow. -/
def Obligations.MulCompletesOrRaises : Prop :=
  encode .mul = [2] ∧
  (∀ s : State, s.depth < 2 → exec .mul s = .next (s.raise .stackUnderflow 0)) ∧
  ∀ (s : State) (a b : Bits32) (rest : List Bits32), s.stack = b :: a :: rest →
    (s.params.overflow = .wrap ∨ (-2 ^ 31 ≤ sint a * sint b ∧ sint a * sint b ≤ 2 ^ 31 - 1) →
      exec .mul s = .next { s with stack := bits32 (sint a * sint b) :: rest, pc := s.pc + s.len .mul }) ∧
    (s.params.overflow = .trap → ¬(-2 ^ 31 ≤ sint a * sint b ∧ sint a * sint b ≤ 2 ^ 31 - 1) →
      exec .mul s = .next (s.raise .arithmeticOverflow 0))

/-- 41_arithmetic.md R121: DIV is opcode 3, `a / b` truncated toward zero. INT_MIN and −1 give INT_MIN in Wrap mode
and raise ArithmeticOverflow in Trap mode; a divisor 0 raises DivisionByZero; fewer than two entries, StackUnderflow. -/
def Obligations.DivCompletesOrRaises : Prop :=
  encode .div = [3] ∧
  (∀ s : State, s.depth < 2 → exec .div s = .next (s.raise .stackUnderflow 0)) ∧
  ∀ (s : State) (a b : Bits32) (rest : List Bits32), s.stack = b :: a :: rest →
    (sint b = 0 → exec .div s = .next (s.raise .divisionByZero 0)) ∧
    (sint b ≠ 0 → ¬(sint a = -2 ^ 31 ∧ sint b = -1) →
      exec .div s = .next { s with stack := bits32 ((sint a).tdiv (sint b)) :: rest, pc := s.pc + s.len .div }) ∧
    (sint a = -2 ^ 31 → sint b = -1 → s.params.overflow = .wrap →
      exec .div s = .next { s with stack := intMin :: rest, pc := s.pc + s.len .div }) ∧
    (sint a = -2 ^ 31 → sint b = -1 → s.params.overflow = .trap →
      exec .div s = .next (s.raise .arithmeticOverflow 0))

/-- 41_arithmetic.md R122: MOD is opcode 4, the remainder of the truncated division. INT_MIN and −1 give 0 in Wrap mode
and raise ArithmeticOverflow in Trap mode; a divisor 0 raises DivisionByZero; fewer than two entries, StackUnderflow. -/
def Obligations.ModCompletesOrRaises : Prop :=
  encode .mod = [4] ∧
  (∀ s : State, s.depth < 2 → exec .mod s = .next (s.raise .stackUnderflow 0)) ∧
  ∀ (s : State) (a b : Bits32) (rest : List Bits32), s.stack = b :: a :: rest →
    (sint b = 0 → exec .mod s = .next (s.raise .divisionByZero 0)) ∧
    (sint b ≠ 0 → ¬(sint a = -2 ^ 31 ∧ sint b = -1) →
      exec .mod s = .next { s with stack := bits32 ((sint a).tmod (sint b)) :: rest, pc := s.pc + s.len .mod }) ∧
    (sint a = -2 ^ 31 → sint b = -1 → s.params.overflow = .wrap →
      exec .mod s = .next { s with stack := 0 :: rest, pc := s.pc + s.len .mod }) ∧
    (sint a = -2 ^ 31 → sint b = -1 → s.params.overflow = .trap →
      exec .mod s = .next (s.raise .arithmeticOverflow 0))

/-- 41_arithmetic.md R122: where DIV gives `q` and MOD gives `r`, `a = b × q + r` modulo 2^32, `r` is 0 or has the sign of
`a`, and its magnitude is less than that of `b`. -/
def Obligations.DivAndModAgree : Prop :=
  ∀ (s t u : State) (a b q r : Bits32) (rest : List Bits32), s.stack = b :: a :: rest →
    exec .div s = .next t → t.stack = q :: rest → exec .mod s = .next u → u.stack = r :: rest →
    t.runState = s.runState → s.runState = .running →
    a = b * q + r ∧ (sint r = 0 ∨ (sint r < 0 ↔ sint a < 0)) ∧ (sint r).natAbs < (sint b).natAbs

/-- 41_arithmetic.md R117, R123: the frame of the two-operand instructions. Registers, program, parameters, ports and the INPUT
state stay; the stack below the two operands stays; where the instruction raises, the stack and pc stay. -/
def Obligations.ArithmeticFrame : Prop :=
  ∀ (i : Instr) (s t : State), (i = .add ∨ i = .sub ∨ i = .mul ∨ i = .div ∨ i = .mod) → exec i s = .next t →
    (∀ r, t.x.get r = s.x.get r) ∧ SameEnvironment s t ∧ SamePorts s t ∧
    ((SameStatus s t ∧ SameInputState s t ∧ t.pc = s.pc + s.len i ∧ ∃ a b r rest, s.stack = b :: a :: rest ∧ t.stack = r :: rest) ∨
      (t.runState = .faulted ∧ t.stack = s.stack ∧ t.pc = s.pc))

/-! ## Stack and registers -/

/-- 44_stack_register.md R142: PUSH imm is opcode 8 and the Value's four bytes, big-endian. It pushes the Value unchanged, every
`Bits32` of them; on a full stack it raises StackOverflow. -/
def Obligations.PushImmCompletesOrRaises : Prop :=
  ∀ v : Bits32,
    encode (.pushImm v) = [8, v.extractLsb' 24 8, v.extractLsb' 16 8, v.extractLsb' 8 8, v.extractLsb' 0 8] ∧
    ∀ s : State,
      ((∀ n, s.params.stackDepth = some n → s.depth < n) →
        exec (.pushImm v) s = .next { s with stack := v :: s.stack, pc := s.pc + s.len (.pushImm v) }) ∧
      (s.params.stackDepth = some s.depth → exec (.pushImm v) s = .next (s.raise .stackOverflow 0))

/-- 44_stack_register.md R143: PUSH reg is opcode 9 and the register id. It pushes a copy of the register, for each of the four;
on a full stack it raises StackOverflow. -/
def Obligations.PushRegCompletesOrRaises : Prop :=
  encode (.pushReg .a) = [9, 0] ∧ encode (.pushReg .b) = [9, 1] ∧ encode (.pushReg .c) = [9, 2] ∧
  encode (.pushReg .d) = [9, 3] ∧
  (∀ (r : Reg) (s : State), s.params.stackDepth = some s.depth → exec (.pushReg r) s = .next (s.raise .stackOverflow 0)) ∧
  ∀ s : State, (∀ n, s.params.stackDepth = some n → s.depth < n) →
    exec (.pushReg .a) s = .next { s with stack := s.x.a :: s.stack, pc := s.pc + s.len (.pushReg .a) } ∧
    exec (.pushReg .b) s = .next { s with stack := s.x.b :: s.stack, pc := s.pc + s.len (.pushReg .b) } ∧
    exec (.pushReg .c) s = .next { s with stack := s.x.c :: s.stack, pc := s.pc + s.len (.pushReg .c) } ∧
    exec (.pushReg .d) s = .next { s with stack := s.x.d :: s.stack, pc := s.pc + s.len (.pushReg .d) }

/-- 44_stack_register.md R144: POP reg is opcode 10 and the register id. It pops the top into the register, for each of the four;
the others stay. On an empty stack it raises StackUnderflow and the register is unchanged. -/
def Obligations.PopRegCompletesOrRaises : Prop :=
  encode (.popReg .a) = [10, 0] ∧ encode (.popReg .b) = [10, 1] ∧ encode (.popReg .c) = [10, 2] ∧
  encode (.popReg .d) = [10, 3] ∧
  (∀ (r : Reg) (s : State), s.stack = [] → exec (.popReg r) s = .next (s.raise .stackUnderflow 0)) ∧
  ∀ (s : State) (v : Bits32) (rest : List Bits32), s.stack = v :: rest →
    exec (.popReg .a) s = .next { s with stack := rest, x := { s.x with a := v }, pc := s.pc + s.len (.popReg .a) } ∧
    exec (.popReg .b) s = .next { s with stack := rest, x := { s.x with b := v }, pc := s.pc + s.len (.popReg .b) } ∧
    exec (.popReg .c) s = .next { s with stack := rest, x := { s.x with c := v }, pc := s.pc + s.len (.popReg .c) } ∧
    exec (.popReg .d) s = .next { s with stack := rest, x := { s.x with d := v }, pc := s.pc + s.len (.popReg .d) }

/-- The frame of PUSH imm, PUSH reg and POP reg (44_stack_register.md R142–R144): of the registers only POP's destination may
change; a PUSH adds one entry and POP removes one; where the instruction raises, the stack, registers and pc stay. -/
def Obligations.TransferFrame : Prop :=
  ∀ (i : Instr) (s t : State), ((∃ v, i = .pushImm v) ∨ (∃ r, i = .pushReg r) ∨ ∃ r, i = .popReg r) → exec i s = .next t →
    SameEnvironment s t ∧ SamePorts s t ∧ (∀ r, i ≠ .popReg r → t.x.get r = s.x.get r) ∧
    ((SameStatus s t ∧ SameInputState s t ∧ t.pc = s.pc + s.len i ∧
        (((∀ r, i ≠ .popReg r) ∧ t.stack.tail = s.stack ∧ t.stack ≠ []) ∨
          ((∃ r, i = .popReg r) ∧ s.stack.tail = t.stack ∧ s.stack ≠ []))) ∨
      (t.runState = .faulted ∧ t.stack = s.stack ∧ t.x = s.x ∧ t.pc = s.pc))

/-- 10_state.md R22: no instruction but POP reg writes a register, POP reg writes its own only, no instruction but PUSH reg
reads one (run on other register contents, the rest of its outcome is the same), and what POP reg writes PUSH reg reads. -/
def Obligations.OnlyPushRegAndPopRegReachRegisters : Prop :=
  (∀ (i : Instr) (s t : State) (r : Reg), i ≠ .popReg r → exec i s = .next t → t.x.get r = s.x.get r) ∧
  (∀ (i : Instr) (s : State) (x : Regs), (∀ r, i ≠ .pushReg r) → (∀ r, i ≠ .popReg r) →
    exec i { s with x := x } = mapNext (fun t => { t with x := x }) (exec i s)) ∧
  (∀ (r : Reg) (s t : State), exec (.pushReg r) s = .next t → t.x = s.x) ∧
  (∀ (r : Reg) (s t : State) (v : Bits32) (rest : List Bits32), s.stack = v :: rest → exec (.popReg r) s = .next t →
    t.x.get r = v ∧ ∃ u, exec (.pushReg r) t = .next u ∧
      ((∀ n, s.params.stackDepth = some n → s.depth ≤ n) → u.stack = v :: rest))

/-- 44_stack_register.md R145: a PUSH r followed by a POP r leaves `r` and every register unchanged and the stack as it was. -/
def Obligations.PushThenPopIsNeutral : Prop :=
  ∀ (r : Reg) (s : State), (∀ n, s.params.stackDepth = some n → s.depth < n) →
    ∃ t u, exec (.pushReg r) s = .next t ∧ exec (.popReg r) t = .next u ∧ u.x = s.x ∧ u.stack = s.stack ∧
      u = { s with pc := s.pc + s.len (.pushReg r) + s.len (.popReg r) }

/-- 10_state.md R25, R28: the depth never exceeds `STACK_DEPTH`. The premise is the invariant's clause that an INPUT in progress
is past its stack check. -/
def Obligations.DepthStaysBounded : Prop :=
  ∀ (s t : State) (n : Nat), s.awaitingOk = true → s.params.stackDepth = some n → s.depth ≤ n → step s = .next t →
    t.depth ≤ n

/-- 10_state.md R26: an instruction that completes removes `n_pop` entries and adds `n_push`; the entries below are kept. -/
def Obligations.StackEffectByInstruction : Prop :=
  ∀ (i : Instr) (s t : State), exec i s = .next t → t.pc ≠ s.pc →
    i.pops ≤ s.depth ∧ t.stack.drop i.pushes = s.stack.drop i.pops ∧ t.depth + i.pops = s.depth + i.pushes

/-! ## HALT -/

/-- 43_halt.md R140: HALT is opcode 7. It advances the pc by 1 in both modes, sets HALTED and changes nothing else; it cannot
fault. -/
def Obligations.HaltCompletes : Prop :=
  encode .halt = [7] ∧ ∀ s : State, exec .halt s = .next { s with pc := s.pc + 1, runState := .halted }

/-! ## Input and output

That INPUT and OUTPUT go on step by step with the open transaction in `awaiting` is the model's choice (log 5), and that the
host's answers are queues (log 6). -/

/-- 42_io.md R134, R135: OUTPUT is opcode 6. It writes the decimal text of the top and LF; on Ok the pop is committed, on Err
it raises OutputError(1) and the value stays on the stack. On an empty stack it raises StackUnderflow and makes no
transaction. -/
def Obligations.OutputWritesTheTop : Prop :=
  encode .output = [6] ∧
  (∀ s : State, s.stack = [] → exec .output s = .next (s.raise .stackUnderflow 0)) ∧
  ∀ (s : State) (v : Bits32) (rest : List Bits32), s.stack = v :: rest →
    (∀ later, s.outAnswers = some .ok :: later →
      exec .output s = .next { s with
        stack := rest, pc := s.pc + s.len .output, awaiting := none, outAnswers := later,
        trace := s.trace ++ [.out (dec v ++ [0x0A]) .ok] }) ∧
    (∀ later, s.outAnswers = some .err :: later →
      exec .output s = .next (({ s with
        outAnswers := later, trace := s.trace ++ [.out (dec v ++ [0x0A]) .err] } : State).raise .outputError 1))

/-- 42_io.md R130: INPUT begins on a stack that is not full: WAIT_INPUT is 1, RETRY_COUNT 0, and the prompt is written once. -/
def Obligations.InputBeginsWithThePrompt : Prop :=
  ∀ s : State, s.awaiting = none → (∀ n, s.params.stackDepth = some n → s.depth < n) →
    (∀ later, s.outAnswers = some .ok :: later →
      exec .input s = .next { s with
        waitInput := true, rejected := 0, awaiting := some .line, outAnswers := later,
        trace := s.trace ++ [.out s.params.promptText .ok] }) ∧
    (∀ later, s.outAnswers = some .err :: later →
      exec .input s = .next (({ s with
        outAnswers := later, trace := s.trace ++ [.out s.params.promptText .err] } : State).raise .outputError 1)) ∧
    (s.outAnswers = [] ∨ s.outAnswers.head? = some none →
      exec .input s = .next { s with
        waitInput := true, rejected := 0, awaiting := some .prompt, outAnswers := s.outAnswers.tail })

/-- 42_io.md R130: with the line read open, a line that is an integer completes INPUT. -/
def Obligations.InputCompletesOnAnInteger : Prop :=
  ∀ (s : State) (line : Text) (v : Bits32) (later : List (Option InAnswer)), s.awaiting = some .line →
    s.inAnswers = some (.line line) :: later → parseInt32 line = some v →
    exec .input s = .next { s with
      stack := v :: s.stack, pc := s.pc + s.len .input, waitInput := false, rejected := 0, awaiting := none,
      inAnswers := later, trace := s.trace ++ [.inp (.line line)] }

/-- 42_io.md R130, R132: a line that is no integer is counted, RETRY_COUNT saturating (10_state.md R39); INPUT goes on to the retry
message, or raises InputError(3) when more than a finite MAX_INPUT_RETRIES lines are rejected. That the exact number of lines is
tested, also beyond the saturation of RETRY_COUNT, is the model's reading (log 16). -/
def Obligations.InputRejectsALine : Prop :=
  ∀ (s : State) (line : Text) (later : List (Option InAnswer)), s.awaiting = some .line →
    s.inAnswers = some (.line line) :: later → parseInt32 line = none →
    ((∀ k, s.params.maxInputRetries = some k → s.rejected + 1 ≤ k) →
      ∃ t, exec .input s = .next t ∧ t.retryCount.toNat = min (s.retryCount.toNat + 1) (2 ^ 32 - 1) ∧
        t = { s with
          rejected := s.rejected + 1, awaiting := some .retry, inAnswers := later,
          trace := s.trace ++ [.inp (.line line)] }) ∧
    (∀ k, s.params.maxInputRetries = some k → k < s.rejected + 1 →
      exec .input s = .next (({ s with
        inAnswers := later, trace := s.trace ++ [.inp (.line line)] } : State).raise .inputError 3))

/-- 42_io.md R130, R133, R136, R138, 60_exceptions.md R156, R157: INPUT with a transaction open, and waiting. An Ok to the prompt
or the retry message leads to the line read, an Err is OutputError(1); a failed read is InputError(1), the end of the stream
InputError(2); and until the host answers, INPUT and OUTPUT wait and commit nothing. -/
def Obligations.PortAnswersAndWaits : Prop :=
  ∀ s : State,
    (∀ text,
      (s.awaiting = some .prompt ∧ text = s.params.promptText ∨ s.awaiting = some .retry ∧ text = s.params.retryText) →
      (∀ later, s.outAnswers = some .ok :: later →
        exec .input s = .next { s with
          awaiting := some .line, outAnswers := later, trace := s.trace ++ [.out text .ok] }) ∧
      (∀ later, s.outAnswers = some .err :: later →
        exec .input s = .next (({ s with
          outAnswers := later, trace := s.trace ++ [.out text .err] } : State).raise .outputError 1)) ∧
      (s.outAnswers = [] ∨ s.outAnswers.head? = some none →
        exec .input s = .next { s with outAnswers := s.outAnswers.tail })) ∧
    (s.awaiting = some .line →
      (∀ later, s.inAnswers = some .err :: later →
        exec .input s = .next (({ s with
          inAnswers := later, trace := s.trace ++ [.inp .err] } : State).raise .inputError 1)) ∧
      (∀ later, s.inAnswers = some .eof :: later →
        exec .input s = .next (({ s with
          inAnswers := later, trace := s.trace ++ [.inp .eof] } : State).raise .inputError 2)) ∧
      (s.inAnswers = [] ∨ s.inAnswers.head? = some none →
        exec .input s = .next { s with inAnswers := s.inAnswers.tail })) ∧
    (s.stack ≠ [] → s.outAnswers = [] ∨ s.outAnswers.head? = some none →
      exec .output s = .next { s with awaiting := some .value, outAnswers := s.outAnswers.tail })

/-- The frame of INPUT and OUTPUT (42_io.md R130, R134): registers, program, parameters, MODE and control inputs stay; at most
one answer is taken and one transaction traced; INPUT at most pushes and OUTPUT at most pops one entry, and they do so
only when the pc advances; the fault record changes only with STATE. -/
def Obligations.PortInstructionFrame : Prop :=
  ∀ (i : Instr) (s t : State), (i = .input ∨ i = .output) → exec i s = .next t →
    (∀ r, t.x.get r = s.x.get r) ∧ SameEnvironment s t ∧
    ((t.pc = s.pc ∧ t.stack = s.stack) ∨
      (t.pc = s.pc + s.len i ∧ t.awaiting = none ∧ SameStatus s t ∧
        ((i = .input ∧ t.stack.tail = s.stack ∧ t.stack ≠ []) ∨ (i = .output ∧ s.stack.tail = t.stack ∧ s.stack ≠ [])))) ∧
    (SameStatus s t ∨ (t.runState = .faulted ∧ t.pc = s.pc)) ∧
    (∃ made, t.trace = s.trace ++ made ∧ made.length ≤ 1) ∧
    (t.inAnswers = s.inAnswers ∨ (i = .input ∧ t.inAnswers = s.inAnswers.tail)) ∧
    (t.outAnswers = s.outAnswers ∨ t.outAnswers = s.outAnswers.tail) ∧
    (i = .output → t.runState ≠ .faulted → t.waitInput = s.waitInput ∧ t.rejected = s.rejected)

/-- 42_io.md R139, 20_memory.md R54, 00_scope.md R14: within a run (log 8) the trace is never undone: a step keeps it, or appends one
transaction with the answer the host gave. -/
def Obligations.TraceIsNeverUndone : Prop :=
  ∀ s t : State, s.runState ≠ .idle → s.signals.rst = false → step s = .next t →
    t.trace = s.trace ∨
    (∃ text a, t.trace = s.trace ++ [.out text a] ∧ s.outAnswers = some a :: t.outAnswers ∧ t.inAnswers = s.inAnswers) ∨
    (∃ a, t.trace = s.trace ++ [.inp a] ∧ s.inAnswers = some a :: t.inAnswers ∧ t.outAnswers = s.outAnswers)

/-- 42_io.md R128: exactly three kinds of output transaction: INPUT's prompt and retry message, and OUTPUT's value text. -/
def Obligations.ThreeKindsOfOutput : Prop :=
  ∀ (s t : State) (text : Text) (a : OutAnswer), s.Inv → s.signals.rst = false → step s = .next t →
    t.trace = s.trace ++ [.out text a] →
    (s.fetch = .instr .input ∧ (s.awaiting = none ∨ s.awaiting = some .prompt) ∧ text = s.params.promptText) ∨
    (s.fetch = .instr .input ∧ s.awaiting = some .retry ∧ text = s.params.retryText) ∨
    (s.fetch = .instr .output ∧ ∃ v rest, s.stack = v :: rest ∧ text = dec v ++ [0x0A])

/-- 42_io.md R131, 00_scope.md R16: the decimal text of a value reads back as the value, with whitespace around it. -/
def Obligations.DecimalTextReadsBack : Prop :=
  ∀ (v : Bits32) (before after : Text), (∀ b ∈ before, isSpace b = true) → (∀ b ∈ after, isSpace b = true) →
    parseInt32 (before ++ dec v ++ after) = some v

/-- 42_io.md R130, R132: an INPUT whose host answers every transaction, sends `bad` lines that are no integers, at most
MAX_INPUT_RETRIES of them, and then an integer, pushes it after two steps and two more for each bad line, having written the
prompt once and the retry message after each bad line. -/
def Obligations.InputRunsToCompletion : Prop :=
  ∀ (s : State) (bad : List Text) (line : Text) (v : Bits32), s.runState = .running → s.control = [] →
    s.awaiting = none → s.fetch = .instr .input → (∀ n, s.params.stackDepth = some n → s.depth < n) →
    (∀ t ∈ bad, parseInt32 t = none) → parseInt32 line = some v →
    (∀ k, s.params.maxInputRetries = some k → bad.length ≤ k) →
    s.outAnswers = List.replicate (bad.length + 1) (some .ok) →
    s.inAnswers = (bad ++ [line]).map (fun t => some (.line t)) →
    s.waitInput = false → s.rejected = 0 →
    Host.Core.run Sys2Proof.core (2 + 2 * bad.length) s = .next { s with
      stack := v :: s.stack, pc := s.pc + s.len .input, outAnswers := [], inAnswers := [],
      trace := s.trace ++ [.out s.params.promptText .ok]
        ++ bad.flatMap (fun t => [.inp (.line t), .out s.params.retryText .ok]) ++ [.inp (.line line)] }

/-! ## Observation -/

/-- 10_state.md R40: the observe port and `stack_peek`, with the numbers of STATE (R34), MODE (R35) and CAUSE (60_exceptions.md
R148). -/
def Obligations.ObservePort : Prop :=
  ∀ s : State,
    (s.observe 0x00).extractLsb' 0 3 = s.runState.code ∧
    (s.observe 0x00).extractLsb' 3 1 = s.mode.code ∧
    (s.observe 0x00).extractLsb' 4 4 = causeCode s.cause ∧
    (s.observe 0x00).extractLsb' 8 8 = s.faultInfo ∧
    (s.observe 0x00).getLsbD 16 = s.waitInput ∧
    (∀ j, 17 ≤ j → (s.observe 0x00).getLsbD j = false) ∧
    s.observe 0x01 = s.pc ∧ s.observe 0x02 = s.faultPc ∧ s.observe 0x03 = BitVec.ofNat 32 s.depth ∧
    s.observe 0x04 = s.x.a ∧ s.observe 0x05 = s.x.b ∧ s.observe 0x06 = s.x.c ∧ s.observe 0x07 = s.x.d ∧
    s.observe 0x08 = s.retryCount ∧ s.retryCount.toNat = min s.rejected (2 ^ 32 - 1) ∧
    (∀ n : Byte, 9 ≤ n.toNat → s.observe n = 0) ∧
    (∀ (k : Bits32) (h : k.toNat < s.depth), s.stackPeek k = (s.stack[k.toNat], true)) ∧
    (∀ k : Bits32, s.depth ≤ k.toNat → s.stackPeek k = (0, false)) ∧
    RunState.idle.code = 0 ∧ RunState.running.code = 1 ∧ RunState.halted.code = 2 ∧ RunState.ended.code = 3 ∧
    RunState.faulted.code = 4 ∧ RunState.cancelled.code = 5 ∧ Mode.byte.code = 0 ∧ Mode.decoded.code = 1 ∧
    causeCode none = 0 ∧ causeCode (some .endOfInput) = 1 ∧ causeCode (some .wrongOpCode) = 2 ∧
    causeCode (some .wrongRegister) = 3 ∧ causeCode (some .stackUnderflow) = 4 ∧ causeCode (some .inputError) = 5 ∧
    causeCode (some .outputError) = 6 ∧ causeCode (some .divisionByZero) = 7 ∧ causeCode (some .stackOverflow) = 8 ∧
    causeCode (some .arithmeticOverflow) = 9

/-! ## The assembly text -/

/-- 30_encoding.md R97: rendering a Program and parsing the text gives the Program back. -/
def Obligations.TextRoundTrip : Prop := ∀ p : Program, parse (render p) = .ok p

/-- 30_encoding.md R94: every line is attempted. A parse succeeds only if no line fails; otherwise it gives every failing line's
error, each under its line number, in ascending order. A text of blank lines parses to the empty Program. -/
def Obligations.ParseCollectsEveryError : Prop :=
  ∀ t : Text,
    ((∀ line ∈ splitLines t, parseLine line = none) → parse t = .ok []) ∧
    (∀ p, parse t = .ok p → ∀ line ∈ splitLines t, ∀ e, parseLine line ≠ some (.error e)) ∧
    (∀ es, parse t = .error es → es ≠ [] ∧ es.Pairwise (fun a b => a.1 < b.1) ∧
      ∀ n e, (n, e) ∈ es ↔ 1 ≤ n ∧ ∃ line, (splitLines t)[n - 1]? = some line ∧ parseLine line = some (.error e))

/-! ## The whole machine -/

/-- The invariant holds at reset (10_state.md R42). -/
def Obligations.InvariantAtReset : Prop := State.reset.Inv

/-- From every state with the invariant a step answers a next state, never a fault or a refusal, and that state has the
invariant. -/
def Obligations.StepKeepsTheInvariant : Prop := ∀ s : State, s.Inv → ∃ t, step s = .next t ∧ t.Inv

/-- 40_execution_cycle.md R111: byte mode on a valid program and decoded mode on the Program it decodes to, from the same state
and with the same host inputs, agree after every number of steps, as long as the host does not assert `rst`. -/
def Obligations.TheTwoModesAgree : Prop :=
  ∀ s : State, s.params.opcodes.wf = true → decodeProgram s.params.opcodes s.programBytes = .ok s.program →
    (∀ c ∈ s.control, c.rst = false) →
    ∀ n, ∃ b d, Host.Core.run Sys2Proof.core n (s.started .byte) = .next b ∧
      Host.Core.run Sys2Proof.core n (s.started .decoded) = .next d ∧ b.mode = .byte ∧ d.mode = .decoded ∧ Agree b d

/-- 40_execution_cycle.md R112, 70_reset_and_hazards.md R184: a run with no `rst` or `cancel` whose host answers every transaction,
after any delay, ends HALTED, ENDED or FAULTED, if the retry limit is finite, whatever the limit (log 16), or the bad lines are.
`rejects` bounds the rejected lines: the limit for each byte or Statement that is left, or the bad lines the host sends. Each
queue must hold one answer for each byte or Statement left and one for each of `rejects`; what follows is free. R184 counts
instruction steps, at most one for each byte or Statement; `bound` counts the model's finer steps (log 5), the polls without an
answer (log 6) among them. -/
def Obligations.AnsweredRunsEnd : Prop :=
  ∀ (s : State) (rejects bound : Nat), s.Inv → s.runState = .running →
    (∀ c ∈ s.control, c.rst = false ∧ c.cancel = false) →
    ((∃ k, s.params.maxInputRetries = some k ∧ rejects = (s.progEnd - s.pc.toNat) * k) ∨ rejects = s.badLines) →
    (s.progEnd - s.pc.toNat) + rejects ≤ answersIn s.inAnswers →
    (s.progEnd - s.pc.toNat) + rejects ≤ answersIn s.outAnswers →
    bound = 2 * ((s.progEnd - s.pc.toNat) + rejects) + 1 + pausesIn s.inAnswers + pausesIn s.outAnswers →
    ∃ t, Host.Core.run Sys2Proof.core bound s = .next t ∧
      (t.runState = .halted ∨ t.runState = .ended ∨ t.runState = .faulted)

/-! ## The host's provision of a program -/

/-- 70_reset_and_hazards.md R174, 20_memory.md R46: the bytes the host provides in IDLE are the program bytes, in order from
offset 0, and PROG_LEN is their number. -/
def Obligations.ProvidedBytesAreTheProgram : Prop :=
  ∀ (s : State) (bytes : List Byte), s.runState = .idle → bytes.length < 2 ^ 32 →
    (s.provideBytes bytes).programBytes = bytes ∧ (s.provideBytes bytes).progLen.toNat = bytes.length ∧
    (s.Inv → (s.provideBytes bytes).Inv)

/-- The loader the host's check uses: a word of the opcode table placed for the next fetch is run by the next step (log 14). -/
def Obligations.PlacedWordIsRunNext : Prop :=
  ∀ (s : State) (nbits w : Nat) (i : Instr), s.mem.wf = true → s.params.opcodes = OpcodeMap.default → nbits ≤ 40 →
    decodeTableWord nbits w = some i →
    ∃ t, step (s.withFetchWord nbits w) = exec i t ∧ t.pc = (s.withFetchWord nbits w).pc ∧ t.stack = s.stack ∧ t.x = s.x ∧
      t.params = s.params ∧ t.outAnswers = s.outAnswers ∧ t.inAnswers = s.inAnswers ∧ t.mode = .byte
end

