-- ==== Sys2Proof/Laws/Decode.lean ====
section
/-! SUPPORT. The opcode map as a bijection, and what the decoder answers. -/

namespace Sys2Proof

theorem Kind.mem_all (k : Kind) : k ∈ Kind.all := by cases k <;> decide

theorem OpcodeMap.default_wf : OpcodeMap.default.wf = true := by decide

theorem OpcodeMap.wf_length {m : OpcodeMap} (h : m.wf = true) : m.kinds.length = 11 := by
  simp [OpcodeMap.wf] at h; exact h.1.1.1.1

theorem OpcodeMap.wf_nodup {m : OpcodeMap} (h : m.wf = true) : m.kinds.Nodup := by
  simp [OpcodeMap.wf] at h; exact h.1.1.1.2

theorem OpcodeMap.wf_mem {m : OpcodeMap} (h : m.wf = true) (k : Kind) : k ∈ m.kinds := by
  simp [OpcodeMap.wf] at h; exact h.1.1.2 k k.mem_all

/-- The number of a kind's opcode is 0 to 10. -/
theorem OpcodeMap.opcodeOf_toNat {m : OpcodeMap} (h : m.wf = true) (k : Kind) :
    (m.opcodeOf k).toNat = m.kinds.idxOf k := by
  have hlt : m.kinds.idxOf k < 11 := by
    rw [← OpcodeMap.wf_length h]; exact List.idxOf_lt_length_of_mem (OpcodeMap.wf_mem h k)
  simp only [OpcodeMap.opcodeOf, BitVec.toNat_ofNat]
  omega

theorem OpcodeMap.kindOf_opcodeOf {m : OpcodeMap} (h : m.wf = true) (k : Kind) : m.kindOf (m.opcodeOf k) = some k := by
  rw [OpcodeMap.kindOf, OpcodeMap.opcodeOf_toNat h, List.getElem?_idxOf (OpcodeMap.wf_mem h k)]

theorem OpcodeMap.opcodeOf_of_kindOf {m : OpcodeMap} (h : m.wf = true) {b : Byte} {k : Kind} (hb : m.kindOf b = some k) :
    m.opcodeOf k = b := by
  apply BitVec.eq_of_toNat_eq
  rw [OpcodeMap.opcodeOf_toNat h]
  obtain ⟨hlt, hk⟩ := List.getElem?_eq_some_iff.1 hb
  rw [← hk, (OpcodeMap.wf_nodup h).idxOf_getElem]

/-- The bytes the map has no kind for are 11 to 255 (30_encoding.md R72, R82). -/
theorem OpcodeMap.kindOf_eq_none {m : OpcodeMap} (h : m.wf = true) (b : Byte) : m.kindOf b = none ↔ 11 ≤ b.toNat := by
  rw [OpcodeMap.kindOf, List.getElem?_eq_none_iff, OpcodeMap.wf_length h]

theorem Reg.ofByte_id (r : Reg) : Reg.ofByte (BitVec.ofNat 8 r.id) = some r := by cases r <;> decide

theorem Reg.ofByte_eq_some {b : Byte} {r : Reg} (h : Reg.ofByte b = some r) : b = BitVec.ofNat 8 r.id := by
  revert h; revert r; revert b; decide

/-- The bytes that name no register are 4 to 255 (30_encoding.md R83). -/
theorem Reg.ofByte_eq_none (b : Byte) : Reg.ofByte b = none ↔ 4 ≤ b.toNat := by revert b; decide

theorem Instr.length_eq (i : Instr) : i.length = 1 ∨ i.length = 2 ∨ i.length = 5 := by
  cases i <;> simp [Instr.length, Instr.kind, Kind.length]

/-- A decoded operand gives an instruction of the opcode's kind, and all its bytes are consumed. -/
theorem decodeOperands_ok {k : Kind} {rest : List Byte} {i : Instr} {n : Nat} (h : decodeOperands k rest = .ok (i, n)) :
    i.kind = k ∧ n = i.length := by
  cases k
  all_goals first
    | (cases h; exact ⟨rfl, rfl⟩)
    | skip
  · match rest with
    | b0 :: b1 :: b2 :: b3 :: _ => cases h; exact ⟨rfl, rfl⟩
    | [] | [_] | [_, _] | [_, _, _] => cases h
  all_goals
    simp only [decodeOperands, decodeRegOperand] at h
    split at h
    · next r m hr =>
      match rest with
      | [] => cases hr
      | b :: _ =>
        simp only [decodeRegister] at hr
        split at hr
        · cases hr; cases h; exact ⟨rfl, rfl⟩
        · cases hr
    · cases h

/-- A decoded instruction's opcode names its kind, and its length is what was consumed (30_encoding.md R63, R73). -/
theorem decodeInstruction_ok {m : OpcodeMap} {bytes : List Byte} {i : Instr} {n : Nat}
    (h : decodeInstruction m bytes = .ok (i, n)) :
    n = i.length ∧ ∃ b rest, bytes = b :: rest ∧ m.kindOf b = some i.kind ∧ decodeOperands i.kind rest = .ok (i, n) := by
  match bytes with
  | [] => cases h
  | b :: rest =>
    simp only [decodeInstruction, decodeOpcode] at h
    cases hk : m.kindOf b with
    | none => simp [hk] at h
    | some k =>
      simp only [hk, List.drop_one, List.tail_cons] at h
      obtain ⟨rfl, hn⟩ := decodeOperands_ok h
      exact ⟨hn, b, rest, rfl, hk, h⟩

/-- The decoder on a byte and what follows it. -/
theorem decodeInstruction_cons (m : OpcodeMap) (b : Byte) (rest : List Byte) :
    decodeInstruction m (b :: rest) =
      match m.kindOf b with
      | some k => decodeOperands k rest
      | none => .error (.wrongOpCode b) := by
  simp only [decodeInstruction, decodeOpcode]
  cases m.kindOf b <;> rfl

/-- Four bytes as one number, the first most significant. -/
theorem joinBytes_toNat (b0 b1 b2 b3 : Byte) :
    (joinBytes b0 b1 b2 b3).toNat =
    b0.toNat * 2 ^ 24 + b1.toNat * 2 ^ 16 + b2.toNat * 2 ^ 8 + b3.toNat := by
  have h : ∀ n (x : BitVec n) (y : Byte), (x ++ y).toNat = x.toNat * 2 ^ 8 + y.toNat := by
    intro n x y
    rw [BitVec.toNat_append, Nat.shiftLeft_eq, Nat.mul_comm, ← Nat.two_pow_add_eq_or_of_lt (i := 8) y.isLt]
  show (b0 ++ b1 ++ b2 ++ b3 : BitVec (8+8+8+8)).toNat = _
  rw [h, h, h]
  omega

/-- Four bytes joined and taken apart again. -/
theorem encodeValue_joinBytes (b0 b1 b2 b3 : Byte) : encodeValue (joinBytes b0 b1 b2 b3) = [b0, b1, b2, b3] := by
  have h0 := b0.isLt
  have h1 := b1.isLt
  have h2 := b2.isLt
  have h3 := b3.isLt
  simp only [encodeValue, List.cons.injEq, and_true]
  refine ⟨?_, ?_, ?_, ?_⟩ <;> apply BitVec.eq_of_toNat_eq <;>
    simp only [BitVec.extractLsb'_toNat, joinBytes_toNat, Nat.shiftRight_eq_div_pow] <;> omega

/-- A word taken apart and joined again. -/
theorem joinBytes_extract (v : Bits32) :
    joinBytes (v.extractLsb' 24 8) (v.extractLsb' 16 8) (v.extractLsb' 8 8) (v.extractLsb' 0 8) = v := by
  apply BitVec.eq_of_toNat_eq
  have := v.isLt
  simp only [joinBytes_toNat, BitVec.extractLsb'_toNat, Nat.shiftRight_eq_div_pow]
  omega

end Sys2Proof
end

