-- ==== Sys2Proof/Laws/State.lean ====
section
/-! SUPPORT. The field lemmas of the named updates of State: each true by rfl, so that no proof unfolds a record update. -/

namespace Sys2Proof.Machine

variable (s : State)

/-! `commit` moves the pc. -/

@[simp] theorem State.commit_x (i : Instr) : (s.commit i).x = s.x := rfl
@[simp] theorem State.commit_stack (i : Instr) : (s.commit i).stack = s.stack := rfl
@[simp] theorem State.commit_pc (i : Instr) : (s.commit i).pc = s.pc + s.len i := rfl
@[simp] theorem State.commit_runState (i : Instr) : (s.commit i).runState = s.runState := rfl
@[simp] theorem State.commit_mode (i : Instr) : (s.commit i).mode = s.mode := rfl
@[simp] theorem State.commit_cause (i : Instr) : (s.commit i).cause = s.cause := rfl
@[simp] theorem State.commit_faultInfo (i : Instr) : (s.commit i).faultInfo = s.faultInfo := rfl
@[simp] theorem State.commit_faultPc (i : Instr) : (s.commit i).faultPc = s.faultPc := rfl
@[simp] theorem State.commit_waitInput (i : Instr) : (s.commit i).waitInput = s.waitInput := rfl
@[simp] theorem State.commit_rejected (i : Instr) : (s.commit i).rejected = s.rejected := rfl
@[simp] theorem State.commit_awaiting (i : Instr) : (s.commit i).awaiting = s.awaiting := rfl
@[simp] theorem State.commit_trace (i : Instr) : (s.commit i).trace = s.trace := rfl
@[simp] theorem State.commit_mem (i : Instr) : (s.commit i).mem = s.mem := rfl
@[simp] theorem State.commit_progLen (i : Instr) : (s.commit i).progLen = s.progLen := rfl
@[simp] theorem State.commit_program (i : Instr) : (s.commit i).program = s.program := rfl
@[simp] theorem State.commit_params (i : Instr) : (s.commit i).params = s.params := rfl
@[simp] theorem State.commit_inAnswers (i : Instr) : (s.commit i).inAnswers = s.inAnswers := rfl
@[simp] theorem State.commit_outAnswers (i : Instr) : (s.commit i).outAnswers = s.outAnswers := rfl
@[simp] theorem State.commit_control (i : Instr) : (s.commit i).control = s.control := rfl

/-! `raise` writes the fault record and ends the run. -/

@[simp] theorem State.raise_x (e : Exception) (n : Byte) : (s.raise e n).x = s.x := rfl
@[simp] theorem State.raise_stack (e : Exception) (n : Byte) : (s.raise e n).stack = s.stack := rfl
@[simp] theorem State.raise_pc (e : Exception) (n : Byte) : (s.raise e n).pc = s.pc := rfl
@[simp] theorem State.raise_runState (e : Exception) (n : Byte) : (s.raise e n).runState = .faulted := rfl
@[simp] theorem State.raise_mode (e : Exception) (n : Byte) : (s.raise e n).mode = s.mode := rfl
@[simp] theorem State.raise_cause (e : Exception) (n : Byte) : (s.raise e n).cause = some e := rfl
@[simp] theorem State.raise_faultInfo (e : Exception) (n : Byte) : (s.raise e n).faultInfo = n := rfl
@[simp] theorem State.raise_faultPc (e : Exception) (n : Byte) : (s.raise e n).faultPc = s.pc := rfl
@[simp] theorem State.raise_waitInput (e : Exception) (n : Byte) : (s.raise e n).waitInput = false := rfl
@[simp] theorem State.raise_rejected (e : Exception) (n : Byte) : (s.raise e n).rejected = 0 := rfl
@[simp] theorem State.raise_awaiting (e : Exception) (n : Byte) : (s.raise e n).awaiting = none := rfl
@[simp] theorem State.raise_trace (e : Exception) (n : Byte) : (s.raise e n).trace = s.trace := rfl
@[simp] theorem State.raise_mem (e : Exception) (n : Byte) : (s.raise e n).mem = s.mem := rfl
@[simp] theorem State.raise_progLen (e : Exception) (n : Byte) : (s.raise e n).progLen = s.progLen := rfl
@[simp] theorem State.raise_program (e : Exception) (n : Byte) : (s.raise e n).program = s.program := rfl
@[simp] theorem State.raise_params (e : Exception) (n : Byte) : (s.raise e n).params = s.params := rfl
@[simp] theorem State.raise_inAnswers (e : Exception) (n : Byte) : (s.raise e n).inAnswers = s.inAnswers := rfl
@[simp] theorem State.raise_outAnswers (e : Exception) (n : Byte) : (s.raise e n).outAnswers = s.outAnswers := rfl
@[simp] theorem State.raise_control (e : Exception) (n : Byte) : (s.raise e n).control = s.control := rfl

/-! `tick` takes the control inputs of the step. -/

@[simp] theorem State.tick_x : (s.tick).x = s.x := rfl
@[simp] theorem State.tick_stack : (s.tick).stack = s.stack := rfl
@[simp] theorem State.tick_pc : (s.tick).pc = s.pc := rfl
@[simp] theorem State.tick_runState : (s.tick).runState = s.runState := rfl
@[simp] theorem State.tick_mode : (s.tick).mode = s.mode := rfl
@[simp] theorem State.tick_cause : (s.tick).cause = s.cause := rfl
@[simp] theorem State.tick_faultInfo : (s.tick).faultInfo = s.faultInfo := rfl
@[simp] theorem State.tick_faultPc : (s.tick).faultPc = s.faultPc := rfl
@[simp] theorem State.tick_waitInput : (s.tick).waitInput = s.waitInput := rfl
@[simp] theorem State.tick_rejected : (s.tick).rejected = s.rejected := rfl
@[simp] theorem State.tick_awaiting : (s.tick).awaiting = s.awaiting := rfl
@[simp] theorem State.tick_trace : (s.tick).trace = s.trace := rfl
@[simp] theorem State.tick_mem : (s.tick).mem = s.mem := rfl
@[simp] theorem State.tick_progLen : (s.tick).progLen = s.progLen := rfl
@[simp] theorem State.tick_program : (s.tick).program = s.program := rfl
@[simp] theorem State.tick_params : (s.tick).params = s.params := rfl
@[simp] theorem State.tick_inAnswers : (s.tick).inAnswers = s.inAnswers := rfl
@[simp] theorem State.tick_outAnswers : (s.tick).outAnswers = s.outAnswers := rfl
@[simp] theorem State.tick_control : (s.tick).control = s.control.tail := rfl

/-! `rst` resets the core and leaves its inputs. -/

@[simp] theorem State.rst_x : (s.rst).x = ⟨0, 0, 0, 0⟩ := rfl
@[simp] theorem State.rst_stack : (s.rst).stack = [] := rfl
@[simp] theorem State.rst_pc : (s.rst).pc = 0 := rfl
@[simp] theorem State.rst_runState : (s.rst).runState = .idle := rfl
@[simp] theorem State.rst_mode : (s.rst).mode = .byte := rfl
@[simp] theorem State.rst_cause : (s.rst).cause = none := rfl
@[simp] theorem State.rst_faultInfo : (s.rst).faultInfo = 0 := rfl
@[simp] theorem State.rst_faultPc : (s.rst).faultPc = 0 := rfl
@[simp] theorem State.rst_waitInput : (s.rst).waitInput = false := rfl
@[simp] theorem State.rst_rejected : (s.rst).rejected = 0 := rfl
@[simp] theorem State.rst_awaiting : (s.rst).awaiting = none := rfl
@[simp] theorem State.rst_trace : (s.rst).trace = [] := rfl
@[simp] theorem State.rst_mem : (s.rst).mem = s.mem := rfl
@[simp] theorem State.rst_progLen : (s.rst).progLen = s.progLen := rfl
@[simp] theorem State.rst_program : (s.rst).program = s.program := rfl
@[simp] theorem State.rst_params : (s.rst).params = s.params := rfl
@[simp] theorem State.rst_inAnswers : (s.rst).inAnswers = s.inAnswers := rfl
@[simp] theorem State.rst_outAnswers : (s.rst).outAnswers = s.outAnswers := rfl
@[simp] theorem State.rst_control : (s.rst).control = s.control := rfl

/-! `started` is `rst` with the mode latched and the core running. -/

@[simp] theorem State.started_x (m : Mode) : (s.started m).x = ⟨0, 0, 0, 0⟩ := rfl
@[simp] theorem State.started_stack (m : Mode) : (s.started m).stack = [] := rfl
@[simp] theorem State.started_pc (m : Mode) : (s.started m).pc = 0 := rfl
@[simp] theorem State.started_runState (m : Mode) : (s.started m).runState = .running := rfl
@[simp] theorem State.started_mode (m : Mode) : (s.started m).mode = m := rfl
@[simp] theorem State.started_cause (m : Mode) : (s.started m).cause = none := rfl
@[simp] theorem State.started_faultInfo (m : Mode) : (s.started m).faultInfo = 0 := rfl
@[simp] theorem State.started_faultPc (m : Mode) : (s.started m).faultPc = 0 := rfl
@[simp] theorem State.started_waitInput (m : Mode) : (s.started m).waitInput = false := rfl
@[simp] theorem State.started_rejected (m : Mode) : (s.started m).rejected = 0 := rfl
@[simp] theorem State.started_awaiting (m : Mode) : (s.started m).awaiting = none := rfl
@[simp] theorem State.started_trace (m : Mode) : (s.started m).trace = [] := rfl
@[simp] theorem State.started_mem (m : Mode) : (s.started m).mem = s.mem := rfl
@[simp] theorem State.started_progLen (m : Mode) : (s.started m).progLen = s.progLen := rfl
@[simp] theorem State.started_program (m : Mode) : (s.started m).program = s.program := rfl
@[simp] theorem State.started_params (m : Mode) : (s.started m).params = s.params := rfl
@[simp] theorem State.started_inAnswers (m : Mode) : (s.started m).inAnswers = s.inAnswers := rfl
@[simp] theorem State.started_outAnswers (m : Mode) : (s.started m).outAnswers = s.outAnswers := rfl
@[simp] theorem State.started_control (m : Mode) : (s.started m).control = s.control := rfl

/-! `RETRY_COUNT` as a view of the number of rejected lines. -/

theorem State.retryCount_toNat : s.retryCount.toNat = min s.rejected (2 ^ 32 - 1) := by
  rw [State.retryCount, BitVec.toNat_ofNat, Nat.mod_eq_of_lt (by omega)]

theorem State.retryCount_eq_zero_iff : s.retryCount = 0 ↔ s.rejected = 0 := by
  rw [← BitVec.toNat_inj, State.retryCount_toNat, show (0 : Bits32).toNat = 0 from rfl]; omega

/-- One more rejected line: `RETRY_COUNT + 1`, saturating. -/
theorem State.retryCount_succ {s t : State} (h : t.rejected = s.rejected + 1) :
    t.retryCount.toNat = min (s.retryCount.toNat + 1) (2 ^ 32 - 1) := by
  rw [State.retryCount_toNat, State.retryCount_toNat, h]; omega

/-! The derived views do not see the control inputs. -/

@[simp] theorem State.tick_fetch : s.tick.fetch = s.fetch := rfl
@[simp] theorem State.tick_len (i : Instr) : s.tick.len i = s.len i := rfl
@[simp] theorem State.tick_full : s.tick.full = s.full := rfl
@[simp] theorem State.tick_depth : s.tick.depth = s.depth := rfl

end Sys2Proof.Machine
end

