-- ==== Sys2Proof/Laws/Ops.lean ====
section
/-! SUPPORT. What each shared operation and each meaning can answer, said once: if it answers a next state, then one of these
cases holds. Callers cite these and unfold nothing. -/

namespace Sys2Proof.Machine

variable {s t : State}

/-! The stack-full check. -/

theorem State.full_eq_true : s.full = true ↔ ∃ n, s.params.stackDepth = some n ∧ n ≤ s.depth := by
  unfold State.full
  cases s.params.stackDepth <;> simp

theorem State.full_eq_false : s.full = false ↔ ∀ n, s.params.stackDepth = some n → s.depth < n := by
  unfold State.full
  cases s.params.stackDepth <;> simp

/-! Shared operations. -/

theorem binop_cases {i : Instr} {f : Bits32 → Bits32 → Alu} (h : binop i f s = .next t) :
    (s.depth < 2 ∧ t = s.raise .stackUnderflow 0) ∨
    ∃ a b rest, s.stack = b :: a :: rest ∧
      ((∃ r, f a b = .value r ∧ t = ({ s with stack := r :: rest } : State).commit i) ∨
        ∃ e, f a b = .trap e ∧ t = s.raise e 0) := by
  unfold binop at h
  split at h
  · next b a rest hs =>
    refine .inr ⟨a, b, rest, hs, ?_⟩
    split at h
    · next r hr => exact .inl ⟨r, hr, by cases h; rfl⟩
    · next e he => exact .inr ⟨e, he, by cases h; rfl⟩
  · next hs =>
    refine .inl ⟨?_, by cases h; rfl⟩
    unfold State.depth
    match hst : s.stack with
    | [] => simp
    | [_] => simp
    | b :: a :: rest => exact absurd hst (hs b a rest)

theorem pushOperand_cases {i : Instr} {v : Bits32} (h : pushOperand i v s = .next t) :
    (s.full = true ∧ t = s.raise .stackOverflow 0) ∨
    (s.full = false ∧ t = ({ s with stack := v :: s.stack } : State).commit i) := by
  unfold pushOperand at h
  split at h
  · next hf => exact .inl ⟨hf, by cases h; rfl⟩
  · next hf => exact .inr ⟨by simpa using hf, by cases h; rfl⟩

theorem outWrite_cases {text : Text} {k : OutAnswer → State → Result} (h : outWrite text k s = .next t) :
    ((s.outAnswers = [] ∨ s.outAnswers.head? = some none) ∧ t = { s with outAnswers := s.outAnswers.tail }) ∨
    ∃ a later, s.outAnswers = some a :: later ∧
      k a { s with outAnswers := later, trace := s.trace ++ [.out text a] } = .next t := by
  unfold outWrite at h
  split at h
  · next hq =>
    have ht : s.outAnswers.tail = s.outAnswers := by simp [hq]
    exact .inl ⟨.inl hq, by cases h; rw [ht]⟩
  · next later hq => exact .inl ⟨.inr (by simp [hq]), by cases h; simp [hq]⟩
  · next a later hq => exact .inr ⟨a, later, hq, h⟩

theorem inRead_cases {k : InAnswer → State → Result} (h : inRead k s = .next t) :
    ((s.inAnswers = [] ∨ s.inAnswers.head? = some none) ∧ t = { s with inAnswers := s.inAnswers.tail }) ∨
    ∃ a later, s.inAnswers = some a :: later ∧
      k a { s with inAnswers := later, trace := s.trace ++ [.inp a] } = .next t := by
  unfold inRead at h
  split at h
  · next hq =>
    have ht : s.inAnswers.tail = s.inAnswers := by simp [hq]
    exact .inl ⟨.inl hq, by cases h; rw [ht]⟩
  · next later hq => exact .inl ⟨.inr (by simp [hq]), by cases h; simp [hq]⟩
  · next a later hq => exact .inr ⟨a, later, hq, h⟩

/-! Which traps the arithmetic has. -/

theorem narrow_trap {m : OverflowMode} {n : Int} {e : Exception} (h : narrow m n = .trap e) :
    e = .arithmeticOverflow ∧ m = .trap ∧ inRange n = false := by
  unfold narrow at h
  cases m with
  | wrap => cases h
  | trap =>
    cases hr : inRange n <;> simp [hr] at h
    exact ⟨h.symm, rfl, rfl⟩

theorem narrow_value {m : OverflowMode} {n : Int} {r : Bits32} (h : narrow m n = .value r) : r = bits32 n := by
  unfold narrow at h
  cases m with
  | wrap => cases h; rfl
  | trap =>
    cases hr : inRange n <;> simp [hr] at h
    exact h.symm

theorem divisionChecks_trap {m : OverflowMode} {a b c r : Bits32} {e : Exception}
    (h : divisionChecks m a b c r = .trap e) :
    (e = .divisionByZero ∧ sint b = 0) ∨
    (e = .arithmeticOverflow ∧ m = .trap ∧ a = intMin ∧ sint b = -1) := by
  unfold divisionChecks at h
  split at h
  · next hb => exact .inl ⟨by cases h; rfl, hb⟩
  · split at h
    · next hc => cases m <;> cases h; exact .inr ⟨rfl, rfl, hc⟩
    · cases h

theorem divisionChecks_value {m : OverflowMode} {a b c r v : Bits32} (h : divisionChecks m a b c r = .value v) :
    sint b ≠ 0 ∧ ((a = intMin ∧ sint b = -1 ∧ m = .wrap ∧ v = c) ∨ (¬(a = intMin ∧ sint b = -1) ∧ v = r)) := by
  unfold divisionChecks at h
  split at h
  · cases h
  · next hb =>
    refine ⟨hb, ?_⟩
    split at h
    · next hc => cases m <;> cases h; exact .inl ⟨hc.1, hc.2, rfl, rfl⟩
    · next hc => exact .inr ⟨hc, by cases h; rfl⟩

/-! POP reg, OUTPUT and INPUT. -/

theorem execPopReg_cases {r : Reg} (h : execPopReg r s = .next t) :
    (s.stack = [] ∧ t = s.raise .stackUnderflow 0) ∨
    ∃ v rest, s.stack = v :: rest ∧ t = ({ s with stack := rest, x := s.x.set r v } : State).commit (.popReg r) := by
  unfold execPopReg at h
  split at h
  · next hs => exact .inl ⟨hs, by cases h; rfl⟩
  · next v rest hs => exact .inr ⟨v, rest, hs, by cases h; rfl⟩

theorem execOutput_cases (h : execOutput s = .next t) :
    (s.stack = [] ∧ t = s.raise .stackUnderflow 0) ∨
    ∃ v rest, s.stack = v :: rest ∧
      (((s.outAnswers = [] ∨ s.outAnswers.head? = some none) ∧
          t = { s with awaiting := some .value, outAnswers := s.outAnswers.tail }) ∨
        (∃ later, s.outAnswers = some .ok :: later ∧
          t = ({ s with
            stack := rest, awaiting := none, outAnswers := later,
            trace := s.trace ++ [.out (outputText v) .ok] } : State).commit .output) ∨
        ∃ later, s.outAnswers = some .err :: later ∧
          t = ({ s with
            outAnswers := later, trace := s.trace ++ [.out (outputText v) .err] } : State).raise .outputError 1) := by
  unfold execOutput at h
  split at h
  · next hs => exact .inl ⟨hs, by cases h; rfl⟩
  · next v rest hs =>
    refine .inr ⟨v, rest, hs, ?_⟩
    rcases outWrite_cases h with ⟨hq, ht⟩ | ⟨a, later, hq, hk⟩
    · exact .inl ⟨hq, ht⟩
    · cases a <;> cases hk
      · exact .inr (.inl ⟨later, hq, rfl⟩)
      · exact .inr (.inr ⟨later, hq, rfl⟩)

/-- INPUT's write of a text, from the state `q` that has the write open. -/
theorem outWrite_inputWritten_cases {text : Text} (h : outWrite text inputWritten s = .next t) :
    ((s.outAnswers = [] ∨ s.outAnswers.head? = some none) ∧ t = { s with outAnswers := s.outAnswers.tail }) ∨
    (∃ later, s.outAnswers = some .ok :: later ∧
      t = { s with awaiting := some .line, outAnswers := later, trace := s.trace ++ [.out text .ok] }) ∨
    ∃ later, s.outAnswers = some .err :: later ∧
      t = ({ s with outAnswers := later, trace := s.trace ++ [.out text .err] } : State).raise .outputError 1 := by
  rcases outWrite_cases h with ⟨hq, ht⟩ | ⟨a, later, hq, hk⟩
  · exact .inl ⟨hq, ht⟩
  · cases a <;> cases hk
    · exact .inr (.inl ⟨later, hq, rfl⟩)
    · exact .inr (.inr ⟨later, hq, rfl⟩)

theorem inputBegin_cases (h : inputBegin s = .next t) :
    (s.full = true ∧ t = s.raise .stackOverflow 0) ∨
    (s.full = false ∧
      (((s.outAnswers = [] ∨ s.outAnswers.head? = some none) ∧
          t = { s with waitInput := true, rejected := 0, awaiting := some .prompt, outAnswers := s.outAnswers.tail }) ∨
        (∃ later, s.outAnswers = some .ok :: later ∧
          t = { s with
            waitInput := true, rejected := 0, awaiting := some .line, outAnswers := later,
            trace := s.trace ++ [.out s.params.promptText .ok] }) ∨
        ∃ later, s.outAnswers = some .err :: later ∧
          t = ({ s with
            outAnswers := later, trace := s.trace ++ [.out s.params.promptText .err] } : State).raise .outputError 1)) := by
  unfold inputBegin at h
  split at h
  · next hf => exact .inl ⟨hf, by cases h; rfl⟩
  · next hf =>
    refine .inr ⟨by simpa using hf, ?_⟩
    rcases outWrite_inputWritten_cases h with ⟨hq, ht⟩ | ⟨l, hq, ht⟩ | ⟨l, hq, ht⟩
    · exact .inl ⟨hq, ht⟩
    · exact .inr (.inl ⟨l, hq, ht⟩)
    · exact .inr (.inr ⟨l, hq, ht⟩)

/-- No line rejected is never too many. -/
@[simp] theorem State.retriesExceeded_zero : s.retriesExceeded 0 = false := by
  unfold State.retriesExceeded; split <;> simp

/-- Under a finite limit the test is the comparison. -/
theorem State.retriesExceeded_finite {k : Nat} (h : s.params.maxInputRetries = some k) (n : Nat) :
    s.retriesExceeded n = decide (k < n) := by
  rw [State.retriesExceeded, h]

theorem inRead_inputAnswered_cases (h : inRead inputAnswered s = .next t) :
    ((s.inAnswers = [] ∨ s.inAnswers.head? = some none) ∧ t = { s with inAnswers := s.inAnswers.tail }) ∨
    ∃ a later, s.inAnswers = some a :: later ∧
      ((∃ n, (n = 1 ∨ n = 2 ∨ n = 3) ∧
          t = ({ s with inAnswers := later, trace := s.trace ++ [.inp a] } : State).raise .inputError n) ∨
        (∃ line v, a = .line line ∧ parseInt32 line = some v ∧
          t = ({ s with
            stack := v :: s.stack, waitInput := false, rejected := 0, awaiting := none, inAnswers := later,
            trace := s.trace ++ [.inp a] } : State).commit .input) ∨
        ∃ line, a = .line line ∧ parseInt32 line = none ∧ s.retriesExceeded (s.rejected + 1) = false ∧
          t = { s with
            rejected := s.rejected + 1, awaiting := some .retry, inAnswers := later,
            trace := s.trace ++ [.inp a] }) := by
  rcases inRead_cases h with ⟨hq, ht⟩ | ⟨a, later, hq, hk⟩
  · exact .inl ⟨hq, ht⟩
  · refine .inr ⟨a, later, hq, ?_⟩
    unfold inputAnswered at hk
    split at hk
    · exact .inl ⟨1, .inl rfl, by cases hk; rfl⟩
    · exact .inl ⟨2, .inr (.inl rfl), by cases hk; rfl⟩
    · next line =>
      split at hk
      · next v hv => exact .inr (.inl ⟨line, v, rfl, hv, by cases hk; rfl⟩)
      · next hv =>
        unfold inputRejected at hk
        split at hk
        · exact .inl ⟨3, .inr (.inr rfl), by cases hk; rfl⟩
        · next hx => exact .inr (.inr ⟨line, rfl, hv, eq_false_of_ne_true hx, by cases hk; rfl⟩)

/-- Which part of INPUT runs. -/
theorem execInput_cases (h : execInput s = .next t) :
    ((s.awaiting = none ∨ s.awaiting = some .value) ∧ inputBegin s = .next t) ∨
    (s.awaiting = some .prompt ∧ outWrite s.params.promptText inputWritten s = .next t) ∨
    (s.awaiting = some .line ∧ inRead inputAnswered s = .next t) ∨
    (s.awaiting = some .retry ∧ outWrite s.params.retryText inputWritten s = .next t) := by
  unfold execInput at h
  split at h
  · next ha => exact .inr (.inl ⟨ha, h⟩)
  · next ha => exact .inr (.inr (.inl ⟨ha, h⟩))
  · next ha => exact .inr (.inr (.inr ⟨ha, h⟩))
  · next ha => exact .inl ⟨.inr ha, h⟩
  · next ha => exact .inl ⟨.inl ha, h⟩

/-! The fetch and the cycle. -/

theorem State.fetch_byte (h : s.mode = .byte) : s.fetch = s.fetchByte := by simp [State.fetch, h]

theorem State.fetch_decoded (h : s.mode = .decoded) : s.fetch = s.fetchDecoded := by simp [State.fetch, h]

/-- What a step of the core is, when it makes one of its own. -/
theorem State.cycle_running {c : Signals} (hs : s.runState = .running) (hr : c.rst = false)
    (hc : s.takesCancel c = false) : s.cycle c = s.runInstruction := by
  simp [State.cycle, hs, hr, hc]

theorem State.runInstruction_cases (h : s.runInstruction = .next t) :
    (s.fetch = .endOfProgram ∧ t = { s with runState := .ended }) ∨
    (∃ i, s.fetch = .instr i ∧ exec i s = .next t) ∨
    ∃ e, s.fetch = .malformed e ∧ t = s.raiseDecode e := by
  unfold State.runInstruction at h
  split at h
  · next hf => exact .inl ⟨hf, by cases h; rfl⟩
  · next i hf => exact .inr (.inl ⟨i, hf, h⟩)
  · next e hf => exact .inr (.inr ⟨e, hf, by cases h; rfl⟩)
  · cases h

/-- Everything a step can do. -/
theorem State.cycle_cases {c : Signals} (h : s.cycle c = .next t) :
    (c.rst = true ∧ t = s.rst) ∨
    (c.rst = false ∧
      ((∃ m, s.runState = .idle ∧ c.start = some m ∧ t = s.started m) ∨
        (s.runState = .idle ∧ c.start = none ∧ t = s) ∨
        (s.runState = .running ∧ s.takesCancel c = true ∧ t = { s with runState := .cancelled }) ∨
        (s.runState = .running ∧ s.takesCancel c = false ∧ s.runInstruction = .next t) ∨
        (s.isOver = true ∧ t = s))) := by
  unfold State.cycle at h
  split at h
  · next hr => exact .inl ⟨hr, by cases h; rfl⟩
  · next hr =>
    refine .inr ⟨by simpa using hr, ?_⟩
    split at h
    · next hs =>
      split at h
      · next m hm => exact .inl ⟨m, hs, hm, by cases h; rfl⟩
      · next hm => exact .inr (.inl ⟨hs, hm, by cases h; rfl⟩)
    · next hs =>
      split at h
      · next hc => exact .inr (.inr (.inl ⟨hs, hc, by cases h; rfl⟩))
      · next hc => exact .inr (.inr (.inr (.inl ⟨hs, by simpa using hc, h⟩)))
    all_goals next hs => exact .inr (.inr (.inr (.inr ⟨by simp [State.isOver, hs], by cases h; rfl⟩)))

end Sys2Proof.Machine
end

