-- ==== Sys2Proof/Laws/Exec.lean ====
section
/-! SUPPORT. What an instruction can do, said once over all eleven: it raises, it goes on waiting at a port, or it completes and
the pc advances by its length. -/

namespace Sys2Proof.Machine

variable {s t : State}

/-- `q` is `s` after at most one look at the ports: nothing, a poll the host has no answer for, or one transaction with the
host's answer. -/
inductive Polled (s : State) : State → Prop where
  | none : Polled s s
  | outWaits (h : s.outAnswers = [] ∨ s.outAnswers.head? = some Option.none) :
    Polled s { s with outAnswers := s.outAnswers.tail }
  | inWaits (h : s.inAnswers = [] ∨ s.inAnswers.head? = some Option.none) :
    Polled s { s with inAnswers := s.inAnswers.tail }
  | out (text : Text) (a : OutAnswer) (later : List (Option OutAnswer)) (h : s.outAnswers = some a :: later) :
    Polled s { s with outAnswers := later, trace := s.trace ++ [.out text a] }
  | inp (a : InAnswer) (later : List (Option InAnswer)) (h : s.inAnswers = some a :: later) :
    Polled s { s with inAnswers := later, trace := s.trace ++ [.inp a] }

/-- The ways an instruction ends its step. -/
inductive ExecEnds (i : Instr) (s : State) : State → Prop where
  | raised (q : State) (hq : Polled s q) (e : Exception) (n : Byte) (he : i.raises e n = true)
    (ht : e = .arithmeticOverflow → s.params.overflow = .trap) : ExecEnds i s (q.raise e n)
  | waits (q : State) (hq : Polled s q) (hi : i = .input ∨ i = .output) (w : Bool) (c : Nat) (a : Awaiting) :
    ExecEnds i s { q with waitInput := w, rejected := c, awaiting := some a }
  | completes (q : State) (hq : Polled s q) (x : Regs) (stack : List Bits32) (w : Bool) (c : Nat)
    (a : Option Awaiting) (hx : ∀ r, i ≠ .popReg r → x.get r = s.x.get r)
    (ha : i = .input ∧ w = false ∧ c = 0 ∧ a = none ∨ i = .output ∧ w = s.waitInput ∧ c = s.rejected ∧ a = none ∨
      w = s.waitInput ∧ c = s.rejected ∧ a = s.awaiting) :
    ExecEnds i s { q with
      x := x, stack := stack, pc := s.pc + s.len i, waitInput := w, rejected := c, awaiting := a
      runState := if i = .halt then .halted else s.runState }

theorem Regs.get_set_other {x : Regs} {r p : Reg} {v : Bits32} (h : p ≠ r) : (x.set r v).get p = x.get p := by
  cases r <;> cases p <;> first | rfl | exact absurd rfl h

@[simp] theorem Regs.get_set_same (x : Regs) (r : Reg) (v : Bits32) : (x.set r v).get r = v := by
  cases r <;> rfl

theorem binop_ends {i : Instr} {f : Bits32 → Bits32 → Alu} (hi : i.raises .stackUnderflow 0 = true)
    (hh : i ≠ .halt)
    (hf : ∀ a b e, f a b = .trap e → i.raises e 0 = true ∧ (e = .arithmeticOverflow → s.params.overflow = .trap))
    (h : binop i f s = .next t) : ExecEnds i s t := by
  rcases binop_cases h with ⟨_, rfl⟩ | ⟨a, b, rest, _, ⟨r, _, rfl⟩ | ⟨e, he, rfl⟩⟩
  · exact .raised s .none _ _ hi nofun
  · have := ExecEnds.completes (i := i) s .none s.x (r :: rest) s.waitInput s.rejected s.awaiting (fun _ _ => rfl)
      (.inr (.inr ⟨rfl, rfl, rfl⟩))
    rw [if_neg hh] at this
    exact this
  · exact .raised s .none _ _ (hf a b e he).1 (hf a b e he).2

theorem pushOperand_ends {i : Instr} {v : Bits32} (hi : i.raises .stackOverflow 0 = true) (hh : i ≠ .halt)
    (h : pushOperand i v s = .next t) : ExecEnds i s t := by
  rcases pushOperand_cases h with ⟨_, rfl⟩ | ⟨_, rfl⟩
  · exact .raised s .none _ _ hi nofun
  · have := ExecEnds.completes (i := i) s .none s.x (v :: s.stack) s.waitInput s.rejected s.awaiting (fun _ _ => rfl)
      (.inr (.inr ⟨rfl, rfl, rfl⟩))
    rw [if_neg hh] at this
    exact this

theorem execPopReg_ends {r : Reg} (h : execPopReg r s = .next t) : ExecEnds (.popReg r) s t := by
  rcases execPopReg_cases h with ⟨_, rfl⟩ | ⟨v, rest, _, rfl⟩
  · exact .raised s .none _ _ rfl nofun
  · exact .completes s .none (s.x.set r v) rest s.waitInput s.rejected s.awaiting
      (fun p hp => Regs.get_set_other fun h => hp (h ▸ rfl)) (.inr (.inr ⟨rfl, rfl, rfl⟩))

theorem execOutput_ends (h : execOutput s = .next t) : ExecEnds .output s t := by
  rcases execOutput_cases h with ⟨_, rfl⟩ | ⟨v, rest, _, ⟨hq, rfl⟩ | ⟨later, hq, rfl⟩ | ⟨later, hq, rfl⟩⟩
  · exact .raised s .none _ _ rfl nofun
  · exact .waits _ (.outWaits hq) (.inr rfl) s.waitInput s.rejected .value
  · exact .completes _ (.out (outputText v) .ok later hq) s.x rest s.waitInput s.rejected none (fun _ _ => rfl)
      (.inr (.inl ⟨rfl, rfl, rfl, rfl⟩))
  · exact .raised _ (.out (outputText v) .err later hq) _ _ rfl nofun

theorem outWrite_inputWritten_ends {text : Text} {w : Awaiting} (hw : s.awaiting = some w)
    (h : outWrite text inputWritten s = .next t) : ExecEnds .input s t := by
  rcases outWrite_inputWritten_cases h with ⟨hq, rfl⟩ | ⟨later, hq, rfl⟩ | ⟨later, hq, rfl⟩
  · simpa [← hw] using ExecEnds.waits _ (.outWaits hq) (.inl rfl) s.waitInput s.rejected w
  · exact .waits _ (.out text .ok later hq) (.inl rfl) s.waitInput s.rejected .line
  · exact .raised _ (.out text .err later hq) _ _ rfl nofun

theorem inputBegin_ends (h : inputBegin s = .next t) : ExecEnds .input s t := by
  rcases inputBegin_cases h with ⟨_, rfl⟩ | ⟨_, ⟨hq, rfl⟩ | ⟨later, hq, rfl⟩ | ⟨later, hq, rfl⟩⟩
  · exact .raised s .none _ _ rfl nofun
  · exact .waits _ (.outWaits hq) (.inl rfl) true 0 .prompt
  · exact .waits _ (.out s.params.promptText .ok later hq) (.inl rfl) true 0 .line
  · exact .raised _ (.out s.params.promptText .err later hq) _ _ rfl nofun

theorem inRead_inputAnswered_ends (hw : s.awaiting = some .line) (h : inRead inputAnswered s = .next t) :
    ExecEnds .input s t := by
  rcases inRead_inputAnswered_cases h with
    ⟨hq, rfl⟩ | ⟨a, later, hq, ⟨n, hn, rfl⟩ | ⟨line, v, rfl, _, rfl⟩ | ⟨line, rfl, _, _, rfl⟩⟩
  · simpa [← hw] using ExecEnds.waits _ (.inWaits hq) (.inl rfl) s.waitInput s.rejected .line
  · exact .raised _ (.inp a later hq) _ _ (by rcases hn with rfl | rfl | rfl <;> rfl) nofun
  · exact .completes _ (.inp (.line line) later hq) s.x (v :: s.stack) false 0 none (fun _ _ => rfl)
      (.inl ⟨rfl, rfl, rfl, rfl⟩)
  · exact .waits _ (.inp (.line line) later hq) (.inl rfl) s.waitInput (s.rejected + 1) .retry

theorem execInput_ends (h : execInput s = .next t) : ExecEnds .input s t := by
  rcases execInput_cases h with ⟨_, h⟩ | ⟨ha, h⟩ | ⟨ha, h⟩ | ⟨ha, h⟩
  · exact inputBegin_ends h
  · exact outWrite_inputWritten_ends ha h
  · exact inRead_inputAnswered_ends ha h
  · exact outWrite_inputWritten_ends ha h

/-- Everything an instruction can do when it answers a next state. -/
theorem exec_ends {i : Instr} (h : exec i s = .next t) : ExecEnds i s t := by
  cases i with
  | add => exact binop_ends rfl nofun (fun a b e he => by
      obtain ⟨rfl, hm, _⟩ := narrow_trap he; exact ⟨rfl, fun _ => hm⟩) h
  | sub => exact binop_ends rfl nofun (fun a b e he => by
      obtain ⟨rfl, hm, _⟩ := narrow_trap he; exact ⟨rfl, fun _ => hm⟩) h
  | mul => exact binop_ends rfl nofun (fun a b e he => by
      obtain ⟨rfl, hm, _⟩ := narrow_trap he; exact ⟨rfl, fun _ => hm⟩) h
  | div => exact binop_ends rfl nofun (fun a b e he => by
      rcases divisionChecks_trap he with ⟨rfl, _⟩ | ⟨rfl, hm, _⟩
      · exact ⟨rfl, nofun⟩
      · exact ⟨rfl, fun _ => hm⟩) h
  | mod => exact binop_ends rfl nofun (fun a b e he => by
      rcases divisionChecks_trap he with ⟨rfl, _⟩ | ⟨rfl, hm, _⟩
      · exact ⟨rfl, nofun⟩
      · exact ⟨rfl, fun _ => hm⟩) h
  | input => exact execInput_ends h
  | output => exact execOutput_ends h
  | halt =>
    cases h
    exact .completes s .none s.x s.stack s.waitInput s.rejected s.awaiting (fun _ _ => rfl)
      (.inr (.inr ⟨rfl, rfl, rfl⟩))
  | pushImm v => exact pushOperand_ends rfl nofun h
  | pushReg r => exact pushOperand_ends rfl nofun h
  | popReg r => exact execPopReg_ends h

end Sys2Proof.Machine
end

