-- ==== Sys2Proof/Laws/Memory.lean ====
section
/-! SUPPORT. Program memory: reads after writes, the canonical form, and what a placed buffer reads as. -/

namespace Sys2Proof.Machine

theorem Memory.read_cons (a : Nat) (v : Byte) (m : Memory) (h : ∀ c ∈ m, a < c.1) (k : Nat) :
    Memory.read (Memory.cons a v m) k = if k = a then v else Memory.read m k := by
  have absent : ∀ (m : Memory), (∀ c ∈ m, a < c.1) → Memory.read m a = unlistedByte := by
    intro m
    induction m with
    | nil => intro _; rfl
    | cons c m ih =>
      intro h
      have hc : c.1 ≠ a := Nat.ne_of_gt (h c (by simp))
      simp only [Memory.read, hc, if_false]
      exact ih fun d hd => h d (by simp [hd])
  unfold Memory.cons
  split
  · next hv =>
    split
    · next hk => rw [hk, absent m h, hv]
    · rfl
  · simp only [Memory.read, eq_comm]

/-- The canonical form, unfolded once. -/
theorem Memory.wf_cons_iff (c : Host.Cell) (m : Memory) :
    Memory.wf (c :: m) = true ↔ c.2 ≠ unlistedByte ∧ (∀ d ∈ m, c.1 < d.1) ∧ Memory.wf m = true := by
  simp [Memory.wf, and_assoc]

theorem Memory.cons_wf (a : Nat) (v : Byte) (m : Memory) (h : ∀ c ∈ m, a < c.1) (hm : Memory.wf m = true) :
    Memory.wf (Memory.cons a v m) = true := by
  unfold Memory.cons
  split
  · exact hm
  · next hv => exact (Memory.wf_cons_iff _ _).2 ⟨hv, h, hm⟩

/-- A cell of a memory a byte was written to is that byte's or was there before. -/
theorem Memory.mem_write {m : Memory} {a : Nat} {v : Byte} {c : Host.Cell} (h : c ∈ Memory.write m a v) :
    c = (a, v) ∨ c ∈ m := by
  induction m with
  | nil => simp only [Memory.write, Memory.cons] at h; split at h <;> simp_all
  | cons d m ih =>
    simp only [Memory.write, Memory.cons] at h
    split at h
    · split at h <;> simp_all
    · split at h
      · split at h
        · exact .inr (List.mem_cons_of_mem _ h)
        · rcases List.mem_cons.1 h with rfl | h <;> simp_all
      · rcases List.mem_cons.1 h with rfl | h
        · simp
        · rcases ih h with h | h <;> simp [h]

/-- Every write keeps the canonical form. -/
theorem Memory.write_wf (m : Memory) (a : Nat) (v : Byte) (hm : Memory.wf m = true) : Memory.wf (Memory.write m a v) = true := by
  induction m with
  | nil => exact Memory.cons_wf a v [] (by simp) rfl
  | cons c m ih =>
    obtain ⟨hc, hlt, hwf⟩ := (Memory.wf_cons_iff c m).1 hm
    unfold Memory.write
    split
    · next hac =>
      exact Memory.cons_wf a v _ (fun d hd => by
        rcases List.mem_cons.1 hd with rfl | hd
        · exact hac
        · exact Nat.lt_trans hac (hlt d hd)) hm
    · split
      · next hac => exact Memory.cons_wf a v m (fun d hd => hac ▸ hlt d hd) hwf
      · next h1 h2 =>
        refine (Memory.wf_cons_iff _ _).2 ⟨hc, fun d hd => ?_, ih hwf⟩
        rcases Memory.mem_write hd with rfl | hd
        · exact Nat.lt_of_le_of_ne (Nat.le_of_not_lt h1) (Ne.symm h2)
        · exact hlt d hd

/-- A read after a write: the byte written at its offset, and every other offset as before. -/
theorem Memory.read_write (m : Memory) (a : Nat) (v : Byte) (hm : Memory.wf m = true) (k : Nat) :
    Memory.read (Memory.write m a v) k = if k = a then v else Memory.read m k := by
  induction m with
  | nil => exact Memory.read_cons a v [] (by simp) k
  | cons c m ih =>
    obtain ⟨_, hlt, hwf⟩ := (Memory.wf_cons_iff c m).1 hm
    unfold Memory.write
    split
    · next hac =>
      exact Memory.read_cons a v _ (fun d hd => by
        rcases List.mem_cons.1 hd with rfl | hd
        · exact hac
        · exact Nat.lt_trans hac (hlt d hd)) k
    · split
      · next hac =>
        rw [Memory.read_cons a v m (fun d hd => hac ▸ hlt d hd) k]
        subst hac
        by_cases hk : k = c.1
        · simp [hk]
        · simp [Memory.read, hk, Ne.symm hk]
      · next h1 h2 =>
        simp only [Memory.read, ih hwf]
        by_cases hk : c.1 = k
        · rw [if_pos hk, if_pos hk, if_neg fun hka => h2 (hka.symm.trans hk.symm)]
        · rw [if_neg hk, if_neg hk]

/-- Placing a buffer keeps the canonical form. -/
theorem Memory.place_wf (bs : List Byte) (m : Memory) (a : Nat) (hm : Memory.wf m = true) :
    Memory.wf (Memory.place m a bs) = true := by
  induction bs generalizing m a with
  | nil => exact hm
  | cons b bs ih => exact ih _ _ (Memory.write_wf m a b hm)

/-- Below its offset a placed buffer changes nothing. -/
theorem Memory.read_place_below (bs : List Byte) (m : Memory) (a k : Nat) (hm : Memory.wf m = true) (hk : k < a) :
    Memory.read (Memory.place m a bs) k = Memory.read m k := by
  induction bs generalizing m a with
  | nil => rfl
  | cons b bs ih =>
    rw [Memory.place, ih _ _ (Memory.write_wf m a b hm) (Nat.lt_succ_of_lt hk), Memory.read_write m a b hm,
      if_neg (Nat.ne_of_lt hk)]

/-- Where a buffer was placed, its bytes are read. -/
theorem Memory.read_place (bs : List Byte) (m : Memory) (a k : Nat) (hm : Memory.wf m = true) (hk : k < bs.length) :
    Memory.read (Memory.place m a bs) (a + k) = bs[k] := by
  induction bs generalizing m a k with
  | nil => simp at hk
  | cons b bs ih =>
    have hw := Memory.write_wf m a b hm
    cases k with
    | zero =>
      show Memory.read (Memory.place (Memory.write m a b) (a + 1) bs) a = b
      rw [Memory.read_place_below bs _ (a + 1) a hw (Nat.lt_succ_self a), Memory.read_write m a b hm, if_pos rfl]
    | succ k =>
      have := ih (Memory.write m a b) (a + 1) k hw (by simpa using hk)
      simpa [Memory.place, Nat.add_assoc, Nat.add_comm 1 k] using this

/-- The cells of a buffer lie from its offset on and before its end. -/
theorem Memory.mem_ofBytes {bs : List Byte} {a : Nat} {c : Host.Cell} (h : c ∈ Memory.ofBytes a bs) :
    a ≤ c.1 ∧ c.1 < a + bs.length := by
  induction bs generalizing a with
  | nil => simp [Memory.ofBytes] at h
  | cons b bs ih =>
    simp only [Memory.ofBytes, Memory.cons] at h
    split at h
    · have := ih h; simp; omega
    · rcases List.mem_cons.1 h with rfl | h
      · simp
      · have := ih h; simp; omega

/-- A buffer's cells are in canonical form. -/
theorem Memory.ofBytes_wf (bs : List Byte) (a : Nat) : Memory.wf (Memory.ofBytes a bs) = true := by
  induction bs generalizing a with
  | nil => rfl
  | cons b bs ih => exact Memory.cons_wf a b _ (fun c hc => (Memory.mem_ofBytes hc).1) (ih _)

/-- A buffer's cells read as its bytes. -/
theorem Memory.read_ofBytes (bs : List Byte) (a k : Nat) (hk : k < bs.length) :
    Memory.read (Memory.ofBytes a bs) (a + k) = bs[k] := by
  induction bs generalizing a k with
  | nil => simp at hk
  | cons b bs ih =>
    have hb : ∀ c ∈ Memory.ofBytes (a + 1) bs, a < c.1 := fun c hc => (Memory.mem_ofBytes hc).1
    cases k with
    | zero => simp [Memory.ofBytes, Memory.read_cons _ _ _ hb]
    | succ k =>
      have := ih (a + 1) k (by simpa using hk)
      rw [Memory.ofBytes, Memory.read_cons _ _ _ hb, if_neg (by omega)]
      simpa [Nat.add_assoc, Nat.add_comm 1 k] using this

/-- The reset memory is in canonical form. -/
theorem State.reset_mem_wf : State.reset.mem.wf = true := rfl

/-- The host's provision of bytes keeps the canonical form. -/
theorem State.provideBytes_wf (bs : List Byte) (s : State) (h : s.mem.wf = true) : (s.provideBytes bs).mem.wf = true := by
  unfold State.provideBytes
  split
  · exact Memory.ofBytes_wf bs 0
  · exact h

/-- Placing bytes for the next fetch keeps the canonical form. -/
theorem State.withFetchBytes_wf (bs : List Byte) (s : State) (h : s.mem.wf = true) :
    (s.withFetchBytes bs).mem.wf = true := Memory.place_wf bs _ _ h

end Sys2Proof.Machine
end

