-- ==== Sys2Proof/Laws/PerInstr.lean ====
section
/-! SUPPORT. Statements about every instruction as syntax, one lemma per constructor. The family `Record` is about the decoded
instruction record of 30_encoding.md R85. -/

namespace Sys2Proof.Laws.Record

/-- The instruction is well-formed; its record and its entry of decoded-instruction memory are well-formed; the record's number
is the place of the instruction's kind in the list of kinds, and its length is the one of 30_encoding.md R63. -/
def Statement (i : Instr) : Prop :=
  i.wf = true ∧ DecodedRecord.wf i.toRecord = true ∧ DecodedRecord.wfEntry (Sys2Proof.Statement.toRecord ⟨i⟩) = true ∧
  Kind.all[i.toRecord.kind]? = some i.kind ∧ i.toRecord.len = i.length

theorem add : Statement .add := by unfold Statement; decide

theorem sub : Statement .sub := by unfold Statement; decide

theorem mul : Statement .mul := by unfold Statement; decide

theorem div : Statement .div := by unfold Statement; decide

theorem mod : Statement .mod := by unfold Statement; decide

theorem input : Statement .input := by unfold Statement; decide

theorem output : Statement .output := by unfold Statement; decide

theorem halt : Statement .halt := by unfold Statement; decide

theorem pushImm (v : Bits32) : Statement (.pushImm v) := ⟨rfl, rfl, rfl, rfl, rfl⟩

theorem pushReg (r : Reg) : Statement (.pushReg r) := by cases r <;> (unfold Statement; decide)

theorem popReg (r : Reg) : Statement (.popReg r) := by cases r <;> (unfold Statement; decide)

end Sys2Proof.Laws.Record
end

