-- ==== Sys2Proof/Laws/Run.lean ====
section
/-! SUPPORT. Steps and runs: what a step does when the core makes one of its own, and a run one step at a time. -/

namespace Sys2Proof.Machine

variable {s t : State}

/-- No steps. -/
@[simp] theorem run_zero (s : State) : Host.Core.run Sys2Proof.core 0 s = .next s := rfl

/-- A run of any machine, one step at a time. -/
theorem core_run_succ (M : Host.Core) (n : Nat) (s : M.State) :
    M.run (n + 1) s =
      match M.step s with
      | .next t => M.run n t
      | .fault r => .fault r
      | .refused r => .refused r := rfl

/-- One step and then the rest. -/
theorem run_succ (h : step s = .next t) (n : Nat) :
    Host.Core.run Sys2Proof.core (n + 1) s = Host.Core.run Sys2Proof.core n t := by
  have h' : Host.Core.step Sys2Proof.core s = .next t := h
  rw [core_run_succ Sys2Proof.core n s, h']

/-- A run of at least one step begins with a step to a next state. -/
theorem run_succ_next {n : Nat} (h : Host.Core.run Sys2Proof.core (n + 1) s = .next t) :
    ∃ u, step s = .next u ∧ Host.Core.run Sys2Proof.core n u = .next t := by
  rw [core_run_succ Sys2Proof.core n s] at h
  cases hs : Host.Core.step Sys2Proof.core s with
  | next u => exact ⟨u, hs, by rw [hs] at h; exact h⟩
  | fault r => rw [hs] at h; cases h
  | refused r => rw [hs] at h; cases h

/-- A run in two parts. -/
theorem run_add {m n : Nat} (h : Host.Core.run Sys2Proof.core m s = .next t) :
    Host.Core.run Sys2Proof.core (m + n) s = Host.Core.run Sys2Proof.core n t := by
  induction m generalizing s with
  | zero => cases h; rw [Nat.zero_add]
  | succ m ih =>
    obtain ⟨u, hs, hu⟩ := run_succ_next h
    rw [Nat.add_right_comm, run_succ hs, ih hu]

/-- The core makes a step of its own: the instruction at the pc runs. -/
theorem step_of_executes (h : s.executes) : step s = s.tick.runInstruction := by
  refine State.cycle_running h.1 h.2.1 ?_
  unfold State.takesCancel
  rcases h.2.2 with hc | ha
  · rw [hc, Bool.false_and]
  · rw [State.tick_awaiting, Option.isNone_eq_false_iff.2 (Option.isSome_iff_ne_none.2 ha), Bool.and_false]

/-- An instruction fetched is the one that runs. -/
theorem State.runInstruction_instr {i : Instr} (h : s.fetch = .instr i) : s.runInstruction = exec i s := by
  rw [State.runInstruction, h]

/-- A look at the ports changes the trace and the host's answers only. -/
theorem Polled.eq {q : State} (h : Polled s q) :
    q = { s with trace := q.trace, inAnswers := q.inAnswers, outAnswers := q.outAnswers } := by
  cases h <;> rfl

/-! The queues of the host's answers. -/

section Queues

variable {α : Type} (a : α) (q : List (Option α))

@[simp] theorem answersIn_some : answersIn (some a :: q) = answersIn q + 1 := by simp [answersIn]
@[simp] theorem answersIn_none : answersIn (none :: q) = answersIn q := by simp [answersIn]
@[simp] theorem pausesIn_some : pausesIn (some a :: q) = pausesIn q := by simp [pausesIn]
@[simp] theorem pausesIn_none : pausesIn (none :: q) = pausesIn q + 1 := by simp [pausesIn]

end Queues

/-- A poll without an answer, of a queue that holds one: the poll is used up and no answer. -/
theorem answersIn_tail_of_waits {α : Type} {q : List (Option α)} (h : q = [] ∨ q.head? = some none) (ha : 0 < answersIn q) :
    answersIn q.tail = answersIn q ∧ pausesIn q.tail + 1 = pausesIn q := by
  rcases h with rfl | h
  · simp [answersIn] at ha
  · obtain _ | ⟨a, q⟩ := q
    · simp at h
    · cases Option.some.inj h
      simp

end Sys2Proof.Machine
end

