-- ==== Sys2Proof/Tests/Slice0.lean ====
section
/-! SUPPORT. Tests with expected results from spec/95_test_vectors.md and the rule tables, one step each, and a witness for the
hypotheses of every statement in Certificates/Slice0/Obligations.lean. -/

namespace Sys2Proof.Tests

open Sys2Proof.Machine

/-! ## Helpers -/

/-- Parameters with texts of their own, so that the texts can be computed with. -/
def testParams : Params where
  stackDepth := some 3
  maxInputRetries := some 1
  promptText := ascii ['?']
  retryText := ascii ['!']
  overflow := .wrap
  opcodes := OpcodeMap.default

/-- The same in Trap mode. -/
def trapParams : Params := { testParams with overflow := .trap }

/-- An idle machine with a program provided. -/
def idle (bytes : List Byte) : State :=
  { State.reset with
    params := testParams, mem := Memory.ofBytes 0 bytes, progLen := BitVec.ofNat 32 bytes.length }

/-- A machine started on the bytes, with a stack. -/
def running (bytes : List Byte) (stack : List Bits32) : State := { idle bytes with runState := .running, stack := stack }

/-- A machine started in decoded mode on a Program. -/
def runningDecoded (p : Program) : State := { running [] [] with mode := .decoded, program := p }

/-- The next state, if there is one. -/
def nextOf : Result → Option State
  | .next s => some s
  | .fault _ | .refused _ => none

/-- The stack and pc after an outcome. -/
def stackAndPc (r : Result) : Option (List Bits32 × Bits32) := (nextOf r).map fun t => (t.stack, t.pc)

/-- The cause, info, stack and pc after an outcome. -/
def faultOf (r : Result) : Option (Option Exception × Byte × List Bits32 × Bits32) :=
  (nextOf r).map fun t => (t.cause, t.faultInfo, t.stack, t.faultPc)

/-- The registers after an outcome. -/
def regsOf (r : Result) : Option (Bits32 × Bits32 × Bits32 × Bits32) :=
  (nextOf r).map fun t => (t.x.a, t.x.b, t.x.c, t.x.d)

/-- STATUS after an outcome. -/
def statusOf (r : Result) : Option Bits32 := (nextOf r).map fun t => t.observe 0

/-- The trace after an outcome. -/
def traceOf (r : Result) : Option (List Transaction) := (nextOf r).map fun t => t.trace

/-- What a decode answers, as comparable data. -/
def decoded (bytes : List Byte) : Option (Instr × Nat) ⊕ DecodeError :=
  match decodeInstruction OpcodeMap.default bytes with
  | .ok r => .inl (some r)
  | .error e => .inr e

/-- What a whole decode answers. -/
def decodedProgram (bytes : List Byte) : Program ⊕ DecodeError :=
  match decodeProgram OpcodeMap.default bytes with
  | .ok p => .inl p
  | .error e => .inr e

/-- What a parse answers. -/
def parsed (t : List Char) : Program ⊕ List (Nat × LineError) :=
  match parse (ascii t) with
  | .ok p => .inl p
  | .error es => .inr es

/-! ## Well-formedness: each check refuses its ill-formed term -/

theorem test_record_ok : DecodedRecord.wf ⟨8, 0x80000000, 0, 5⟩ = true := by decide
theorem test_record_kind : DecodedRecord.wf ⟨11, 0, 0, 1⟩ = false := by decide
theorem test_record_imm : DecodedRecord.wf ⟨0, 1, 0, 1⟩ = false := by decide
theorem test_record_reg : DecodedRecord.wf ⟨9, 0, 4, 2⟩ = false := by decide
theorem test_record_unused_reg : DecodedRecord.wf ⟨8, 5, 1, 5⟩ = false := by decide
theorem test_record_len : DecodedRecord.wf ⟨10, 0, 3, 5⟩ = false := by decide
theorem test_entry_ok : DecodedRecord.wfEntry ⟨10, 0, 3, 1⟩ = true := by decide
theorem test_entry_len : DecodedRecord.wfEntry ⟨10, 0, 3, 2⟩ = false := by decide
theorem test_entry_kind : DecodedRecord.wfEntry ⟨11, 0, 0, 1⟩ = false := by decide
theorem test_instr_ok : Instr.wf (.popReg .d) = true := by decide
theorem test_map_default : OpcodeMap.wf OpcodeMap.default = true := by decide
theorem test_map_other :
    OpcodeMap.wf ⟨[.add, .popReg, .sub, .mul, .div, .mod, .input, .output, .pushImm, .halt, .pushReg]⟩ = true := by decide
theorem test_map_short : OpcodeMap.wf ⟨[.add]⟩ = false := by decide
theorem test_map_twice :
    OpcodeMap.wf ⟨[.add, .sub, .sub, .div, .mod, .input, .output, .halt, .pushImm, .pushReg, .popReg]⟩ = false := by decide
theorem test_map_add :
    OpcodeMap.wf ⟨[.sub, .add, .mul, .div, .mod, .input, .output, .halt, .pushImm, .pushReg, .popReg]⟩ = false := by decide
theorem test_map_push :
    OpcodeMap.wf ⟨[.add, .sub, .mul, .div, .mod, .input, .output, .pushImm, .halt, .pushReg, .popReg]⟩ = false := by decide
theorem test_params_ok : Params.wf testParams = true := by decide
theorem test_params_depth : Params.wf { testParams with stackDepth := some 0 } = false := by decide
theorem test_params_map : Params.wf { testParams with opcodes := ⟨[]⟩ } = false := by decide
theorem test_program_ok : Program.wf [⟨.halt⟩] = true := by decide

/-! ## Decoding: words written out from 30_encoding.md R64–R69 and 95_test_vectors.md 2.1 -/

theorem test_decode_add : decoded [0] = .inl (some (.add, 1)) := by decide
theorem test_decode_sub : decoded [1] = .inl (some (.sub, 1)) := by decide
theorem test_decode_mul : decoded [2] = .inl (some (.mul, 1)) := by decide
theorem test_decode_div : decoded [3] = .inl (some (.div, 1)) := by decide
theorem test_decode_mod : decoded [4] = .inl (some (.mod, 1)) := by decide
theorem test_decode_input : decoded [5] = .inl (some (.input, 1)) := by decide
theorem test_decode_output : decoded [6] = .inl (some (.output, 1)) := by decide
theorem test_decode_halt : decoded [7, 255] = .inl (some (.halt, 1)) := by decide
theorem test_decode_push_imm : decoded [8, 0, 0, 0, 2, 99] = .inl (some (.pushImm 2, 5)) := by decide
theorem test_decode_push_imm_order : decoded [8, 0x12, 0x34, 0x56, 0x78] = .inl (some (.pushImm 0x12345678, 5)) := by decide
theorem test_decode_push_reg : decoded [9, 3] = .inl (some (.pushReg .d, 2)) := by decide
theorem test_decode_pop_reg : decoded [10, 1] = .inl (some (.popReg .b, 2)) := by decide
theorem test_decode_empty : decoded [] = .inr .endOfInput := by decide
theorem test_decode_no_register : decoded [10] = .inr .endOfInput := by decide
theorem test_decode_short_value : decoded [8, 0, 0, 0] = .inr .endOfInput := by decide
theorem test_decode_opcode_11 : decoded [11] = .inr (.wrongOpCode 11) := by decide
theorem test_decode_opcode_first : decoded [12, 9] = .inr (.wrongOpCode 12) := by decide
theorem test_decode_register_4 : decoded [10, 4] = .inr (.wrongRegister 4) := by decide
theorem test_decode_program : decodedProgram [0, 1, 2] = .inl [⟨.add⟩, ⟨.sub⟩, ⟨.mul⟩] := by decide
theorem test_decode_program_empty : decodedProgram [] = .inl [] := by decide
theorem test_decode_program_fails : decodedProgram [7, 255] = .inr (.wrongOpCode 255) := by decide
theorem test_encode_push_imm : encode (.pushImm 0xFFFFFFFE) = [8, 0xFF, 0xFF, 0xFF, 0xFE] := by decide
theorem test_encode_push_reg : encode (.pushReg .d) = [9, 3] := by decide
theorem test_encode_pop_reg : encode (.popReg .b) = [10, 1] := by decide
theorem test_encode_halt : encode .halt = [7] := by decide
theorem test_table_word_push_imm : decodeTableWord 40 0x0812345678 = some (.pushImm 0x12345678) := by decide
theorem test_table_word_pop_reg : decodeTableWord 16 0x0A03 = some (.popReg .d) := by decide
theorem test_table_word_div : decodeTableWord 8 3 = some .div := by decide
theorem test_placed_word : stackAndPc (step (State.reset.withFetchWord 40 0x0800000005)) = some ([5], 5) := by decide

/-! ## Arithmetic: 41_arithmetic.md R118–R126 and 95_test_vectors.md 2.2 -/

theorem test_add_wraps : stackAndPc (step (running [0] [1, 0x7FFFFFFF])) = some ([0x80000000], 1) := by decide
theorem test_add_traps :
    faultOf (exec .add { running [0] [1, 0x7FFFFFFF] with params := trapParams }) =
      some (some .arithmeticOverflow, 0, [1, 0x7FFFFFFF], 0) := by decide
theorem test_sub_order : stackAndPc (step (running [1] [3, 10])) = some ([7], 1) := by decide
theorem test_sub_one_entry : faultOf (step (running [1] [1])) = some (some .stackUnderflow, 0, [1], 0) := by decide
theorem test_mul_sign : stackAndPc (step (running [2] [-4, 3])) = some ([-12], 1) := by decide
theorem test_mul_wraps : stackAndPc (step (running [2] [65536, 65536])) = some ([0], 1) := by decide
theorem test_div_truncates : stackAndPc (step (running [3] [2, -7])) = some ([-3], 1) := by decide
theorem test_div_corner : stackAndPc (step (running [3] [-1, 0x80000000])) = some ([0x80000000], 1) := by decide
theorem test_mod_sign : stackAndPc (step (running [4] [2, -7])) = some ([-1], 1) := by decide
theorem test_mod_corner : stackAndPc (step (running [4] [-1, 0x80000000])) = some ([0], 1) := by decide

/-! ## Stack, registers, HALT: 44_stack_register.md, 43_halt.md, 95_test_vectors.md 2.5 and 2.6 -/

theorem test_push_imm : stackAndPc (step (running [8, 0x80, 0, 0, 0] [7])) = some ([0x80000000, 7], 5) := by decide
theorem test_push_imm_full :
    faultOf (step (running [8, 0, 0, 0, 1] [1, 2, 3])) = some (some .stackOverflow, 0, [1, 2, 3], 0) := by decide
theorem test_push_reg :
    stackAndPc (step { running [9, 2] [] with x := ⟨1, 2, 3, 4⟩ }) = some ([3], 2) := by decide
theorem test_pop_reg :
    regsOf (step { running [10, 3] [9, 8] with x := ⟨1, 2, 3, 4⟩ }) = some (1, 2, 3, 9) := by decide
theorem test_pop_reg_empty : faultOf (step (running [10, 0] [])) = some (some .stackUnderflow, 0, [], 0) := by decide
theorem test_halt_byte : statusOf (step (running [7, 255] [])) = some 2 := by decide
theorem test_halt_decoded : stackAndPc (step (runningDecoded [⟨.halt⟩, ⟨.add⟩])) = some ([], 1) := by decide
theorem test_decoded_len_one : stackAndPc (step (runningDecoded [⟨.pushImm 4⟩])) = some ([4], 1) := by decide

/-! ## Input and output: 42_io.md R128–R136, 95_test_vectors.md 2.3 and 2.4 -/

theorem test_parse_accepts :
    parseInt32 (ascii [' ', '4', '2', ' ']) = some 42 ∧ parseInt32 [0x09, 0x2D, 0x31, 0x33, 0x0D] = some (-13) ∧
    parseInt32 (ascii ['+', '7']) = some 7 ∧ parseInt32 (ascii ['-', '0']) = some 0 ∧
    parseInt32 (ascii ['0', '0', '7']) = some 7 ∧
    parseInt32 (ascii ['2', '1', '4', '7', '4', '8', '3', '6', '4', '7']) = some 0x7FFFFFFF ∧
    parseInt32 (ascii ['-', '2', '1', '4', '7', '4', '8', '3', '6', '4', '8']) = some 0x80000000 := by decide
theorem test_parse_rejects :
    parseInt32 (ascii ['2', '1', '4', '7', '4', '8', '3', '6', '4', '8']) = none ∧
    parseInt32 (ascii ['-', '2', '1', '4', '7', '4', '8', '3', '6', '4', '9']) = none ∧ parseInt32 [] = none ∧
    parseInt32 (ascii ['4', ' ', '2']) = none ∧ parseInt32 (ascii ['0', 'x', '1', '0']) = none ∧
    parseInt32 (ascii ['1', 'e', '3']) = none ∧ parseInt32 (ascii ['3', '.', '0']) = none ∧
    parseInt32 (ascii ['+']) = none ∧ parseInt32 (ascii ['-', '-', '1']) = none := by decide
theorem test_dec_min : dec 0x80000000 = ascii ['-', '2', '1', '4', '7', '4', '8', '3', '6', '4', '8'] := by decide
theorem test_dec_zero : dec 0 = ascii ['0'] := by decide

/-- INPUT with the line read open and a line at hand. -/
def reading (line : Text) : State :=
  { running [5] [] with waitInput := true, awaiting := some .line, inAnswers := [some (.line line)] }

theorem test_input_reads :
    stackAndPc (step (reading (ascii ['4', '2']))) = some ([42], 1) ∧
    (nextOf (step (reading (ascii ['x'])))).map (fun t => (t.awaiting, t.retryCount, t.pc)) = some (some .retry, 1, 0) ∧
    faultOf (step { reading (ascii ['x']) with rejected := 1 }) = some (some .inputError, 3, [], 0) ∧
    faultOf (step { reading [] with inAnswers := [some .eof] }) = some (some .inputError, 2, [], 0) := by decide
theorem test_input_prompt :
    traceOf (step { running [5] [] with outAnswers := [some .err] }) = some [.out (ascii ['?']) .err] ∧
    traceOf (step { running [5] [1, 2, 3] with outAnswers := [some .err] }) = some [] := by decide
theorem test_output_text :
    traceOf (step { running [6] [-15, 3] with outAnswers := [some .ok] }) = some [.out [0x2D, 0x31, 0x35, 0x0A] .ok] := by
  decide
theorem test_output_error :
    faultOf (step { running [6] [9] with outAnswers := [some .err] }) = some (some .outputError, 1, [9], 0) := by decide

/-- The count in RETRY_COUNT saturates (10_state.md R39); the limit is of lines (42_io.md R132). -/
theorem test_retry_count_saturates :
    ({ reading [] with rejected := 2 ^ 33 } : State).observe 8 = 0xFFFFFFFF ∧
    faultOf (step { reading (ascii ['x']) with
      rejected := 2 ^ 33, params := { testParams with maxInputRetries := some (2 ^ 33) } }) =
        some (some .inputError, 3, [], 0) := by decide

/-! ## Faults, the observe port, control: 95_test_vectors.md 1 and 2.7 -/

theorem test_status_wrong_opcode : statusOf (step (running [11] [])) = some 0x0B24 := by decide
theorem test_status_underflow : statusOf (step (running [0] [])) = some 0x44 := by decide
theorem test_status_division : statusOf (step (running [3] [0, 5])) = some 0x74 := by decide
theorem test_fault_register : faultOf (step (running [10, 4] [])) = some (some .wrongRegister, 4, [], 0) := by decide
theorem test_fault_truncated : faultOf (step (running [8, 0, 0] [])) = some (some .endOfInput, 3, [], 0) := by decide
theorem test_fault_decode_first : faultOf (step (running [9, 7] [])) = some (some .wrongRegister, 7, [], 0) := by decide
theorem test_end_of_program : statusOf (step (running [] [])) = some 3 := by decide
theorem test_cancel_first :
    statusOf (step { running [0] [] with control := [{ cancel := true }] }) = some 5 := by decide
theorem test_start_latches : statusOf (step { idle [] with control := [{ start := some .decoded }] }) = some 9 := by decide

/-! ## Assembly: 95_test_vectors.md 2.8 -/

theorem test_parse_example :
    parsed ['p', 'u', 's', 'h', ' ', '2', '\n', 'P', 'u', 's', 'h', ' ', '2', '\n', 'a', 'd', 'd', '\n'] =
      .inl [⟨.pushImm 2⟩, ⟨.pushImm 2⟩, ⟨.add⟩] := by decide
theorem test_parse_crlf :
    parsed ['\r', '\n', ' ', 'P', 'U', 'S', 'H', '\t', '3', ' ', ' ', '\r', '\n', 'H', 'A', 'L', 'T'] =
      .inl [⟨.pushImm 3⟩, ⟨.halt⟩] := by decide
theorem test_parse_push_register : parsed ['P', 'U', 'S', 'H', ' ', 'a'] = .inl [⟨.pushReg .a⟩] := by decide
theorem test_parse_arguments :
    parsed ['f', 'o', 'o', ' ', '1', ' ', '2'] = .inr [(1, .unknownOperation (ascii ['F', 'O', 'O']) 2)] := by decide
theorem test_parse_lines :
    parsed ['F', 'O', 'O', '\n', '\n', ' ', ' ', '\n', 'P', 'O', 'P', ' ', '7', '\n'] =
      .inr [(1, .unknownOperation (ascii ['F', 'O', 'O']) 0),
        (4, .malformedArgument (ascii ['P', 'O', 'P']) (ascii ['1', 's', 't']) (ascii ['7']))] := by decide
theorem test_ordinal_11 : ordinal 11 = ascii ['1', '1', 't', 'h'] := by decide
theorem test_render :
    render [⟨.pushImm (-5)⟩, ⟨.popReg .d⟩] = ascii ['P', 'U', 'S', 'H', ' ', '-', '5', '\n', 'P', 'O', 'P', ' ', 'D', '\n'] := by
  decide

/-! ## Witnesses: a concrete state and operands that meet the hypotheses of each statement, each clause at a boundary -/

/-- An outcome that is a next state with a property. -/
theorem answers {r : Result} {p : State → Prop} (h : ∃ t ∈ nextOf r, p t) : ∃ t, r = .next t ∧ p t := by
  obtain ⟨t, ht, hp⟩ := h
  cases r with
  | next s => cases ht; exact ⟨t, rfl, hp⟩
  | fault f => cases ht
  | refused f => cases ht

/-- A running core with no control input makes a step of its own. -/
theorem running_executes (bytes : List Byte) (stack : List Bits32) : (running bytes stack).executes := ⟨rfl, rfl, .inl rfl⟩

theorem witness_RoundTripLaws :
    OpcodeMap.default.wf = true ∧ decodeInstruction OpcodeMap.default [9, 3, 1] = .ok (.pushReg .d, 2) := by
  exact ⟨by decide, rfl⟩
theorem witness_DecodeInstructionTotal :
    OpcodeMap.wf ⟨[.add, .popReg, .sub, .mul, .div, .mod, .input, .output, .pushImm, .halt, .pushReg]⟩ = true := by decide
theorem witness_DecodeProgramFailFast_first : decodeInstruction OpcodeMap.default [11] = .error (.wrongOpCode 11) := rfl
theorem witness_DecodeProgramFailFast_later :
    decodeInstruction OpcodeMap.default [7, 255] = .ok (.halt, 1) ∧
    decodeProgram OpcodeMap.default [255] = .error (.wrongOpCode 255) := ⟨rfl, rfl⟩
theorem witness_DecodeProgramFailFast_ok :
    decodeInstruction OpcodeMap.default [9, 0] = .ok (.pushReg .a, 2) ∧ decodeProgram OpcodeMap.default [] = .ok [] := ⟨rfl, rfl⟩

theorem witness_StepRunsTheDecodedInstruction_byte :
    (running [10, 3] [1]).executes ∧ (running [10, 3] [1]).pc.toNat < (running [10, 3] [1]).progLen.toNat ∧
    decodeInstruction OpcodeMap.default (running [10, 3] [1]).window = .ok (.popReg .d, 2) :=
  ⟨running_executes _ _, by decide, rfl⟩
theorem witness_StepRunsTheDecodedInstruction_decoded :
    (runningDecoded [⟨.halt⟩]).executes ∧ (runningDecoded [⟨.halt⟩]).program[0]? = some ⟨.halt⟩ :=
  ⟨⟨rfl, rfl, .inl rfl⟩, rfl⟩
theorem witness_RunningOffTheEndEnds_byte :
    (running [] []).executes ∧ (running [] []).mode = .byte ∧ (running [] []).pc = (running [] []).progLen :=
  ⟨running_executes _ _, rfl, by decide⟩
theorem witness_RunningOffTheEndEnds_decoded :
    (runningDecoded []).executes ∧ (runningDecoded []).mode = .decoded ∧ (runningDecoded []).pc.toNat = 0 :=
  ⟨⟨rfl, rfl, .inl rfl⟩, rfl, rfl⟩
theorem witness_EndOfInputAtFetch_raises :
    (running [8, 0, 0, 0] []).executes ∧ OpcodeMap.default.kindOf ((running [8, 0, 0, 0] []).mem.read 0) = some .pushImm ∧
    (running [8, 0, 0, 0] []).progLen.toNat - 0 < Kind.pushImm.length ∧ (running [8, 0, 0, 0] []).cause = none :=
  ⟨running_executes _ _, by decide, by decide, rfl⟩
theorem witness_EndOfInputAtFetch_raised :
    ∃ t, step (running [9] []) = .next t ∧ t.cause = some .endOfInput := answers (by decide)
theorem witness_WrongOpCodeAtFetch_raises :
    (running [11] []).executes ∧ testParams.opcodes.wf = true ∧ (running [11] []).pc.toNat < (running [11] []).progLen.toNat ∧
    11 ≤ ((running [11] []).mem.read 0).toNat := ⟨running_executes _ _, by decide, by decide, by decide⟩
theorem witness_WrongOpCodeAtFetch_raised :
    ∃ t, step (running [255] []) = .next t ∧ t.cause = some .wrongOpCode := answers (by decide)
theorem witness_WrongRegisterAtFetch_raises :
    (running [10, 4] []).executes ∧ (running [10, 4] []).mem.read 0 = 10 ∧ 0 + 1 < (running [10, 4] []).progLen.toNat ∧
    4 ≤ ((running [10, 4] []).mem.read 1).toNat := ⟨running_executes _ _, by decide, by decide, by decide⟩
theorem witness_WrongRegisterAtFetch_raised :
    ∃ t, step (running [9, 255] []) = .next t ∧ t.cause = some .wrongRegister := answers (by decide)

/-- The invariant at a started machine with an empty stack and no open transaction. -/
theorem running_inv (bytes : List Byte) (h : (Memory.ofBytes 0 bytes).wf = true)
    (hb : ∀ c ∈ Memory.ofBytes 0 bytes, c.1 < (BitVec.ofNat 32 bytes.length).toNat) : (running bytes []).Inv where
  memCanonical := h
  memBelow := hb
  paramsWf := test_params_ok
  programWf := rfl
  pcBound := Nat.zero_le _
  depthByPc := Nat.le_refl _
  depth := rfl
  faultRecord := rfl
  hidden := rfl
  retries := rfl
  awaiting := rfl
  idle := nofun

theorem witness_PcOnlyAdvancesByLen_advances :
    (running [7] []).Inv ∧ ∃ t, step (running [7] []) = .next t ∧ t.pc = 1 ∧ t.runState = .halted :=
  ⟨running_inv [7] (by decide) (by decide), answers (by decide)⟩
theorem witness_PcOnlyAdvancesByLen_stays :
    (running [11] []).Inv ∧ ∃ t, step (running [11] []) = .next t ∧ t.pc = 0 ∧ t.runState = .faulted :=
  ⟨running_inv [11] (by decide) (by decide), answers (by decide)⟩
theorem witness_ProgramMemoryIsReadOnly : ∃ t, step (running [7] []) = .next t ∧ t.mem = [(0, 7)] := answers (by decide)
theorem witness_NothingChangesAfterTheEnd :
    ∀ r ∈ [RunState.halted, .ended, .faulted, .cancelled],
      ∃ s : State, s.signals.rst = false ∧ s.signals.start = some .byte ∧ s.runState = r :=
  fun r _ => ⟨{ running [0] [1] with runState := r, control := [{ start := some .byte }] }, rfl, rfl, rfl⟩
theorem witness_ResetFromAnyState :
    ∃ s : State, s.signals.rst = true ∧ s.runState = .running ∧ s.awaiting = some .line :=
  ⟨{ reading [] with control := [{ rst := true }] }, rfl, rfl, rfl⟩
theorem witness_StartOnlyFromIdle_starts :
    ∃ s : State, s.runState = .idle ∧ s.signals.rst = false ∧ s.signals.start = some .decoded :=
  ⟨{ idle [0] with control := [{ start := some .decoded }] }, rfl, rfl, rfl⟩
theorem witness_StartOnlyFromIdle_ignored : ∃ s : State, s.runState ≠ .idle := ⟨running [] [], nofun⟩
theorem witness_StartOnlyFromIdle_waits :
    ∃ s : State, s.runState = .idle ∧ s.signals.rst = false ∧ s.signals.start = none := ⟨idle [0], rfl, rfl, rfl⟩
theorem witness_CancelBetweenInstructions_cancels :
    ∃ s : State, s.runState = .running ∧ s.signals.rst = false ∧ s.signals.cancel = true ∧ s.awaiting = none :=
  ⟨{ running [0] [] with control := [{ cancel := true }] }, rfl, rfl, rfl, rfl⟩
theorem witness_CancelBetweenInstructions_not_sampled :
    ∃ s : State, s.runState = .running ∧ s.awaiting ≠ none := ⟨reading [], rfl, nofun⟩
theorem witness_EmptyProgramEnds_byte :
    ∃ s : State, s.runState = .idle ∧ s.progLen = 0 ∧ s.signals.rst = false ∧ s.signals.start = some .byte ∧
      s.tick.signals = {} := ⟨{ idle [] with control := [{ start := some .byte }] }, rfl, by decide, rfl, rfl, rfl⟩
theorem witness_EmptyProgramEnds_decoded :
    ∃ s : State, s.runState = .idle ∧ s.program = [] ∧ s.signals.rst = false ∧ s.signals.start = some .decoded ∧
      s.tick.signals = {} := ⟨{ idle [7] with control := [{ start := some .decoded }] }, rfl, rfl, rfl, rfl, rfl⟩

theorem witness_FaultEntryIsPrecise :
    ∃ t, step (running [3] [0, 5]) = .next t ∧ t.runState = .faulted := answers (by decide)
theorem witness_ExceptionsByInstruction_endOfInput :
    ∃ t, step (running [8, 0] []) = .next t ∧ t.cause = some .endOfInput := answers (by decide)
theorem witness_ExceptionsByInstruction_wrongOpCode :
    ∃ t, step (running [11] []) = .next t ∧ t.cause = some .wrongOpCode := answers (by decide)
theorem witness_ExceptionsByInstruction_wrongRegister :
    ∃ t, step (running [9, 4] []) = .next t ∧ t.cause = some .wrongRegister := answers (by decide)
theorem witness_ExceptionsByInstruction_execution :
    ∃ t, step (running [3] [0, 5]) = .next t ∧ t.cause = some .divisionByZero := answers (by decide)
theorem witness_ExceptionsByInstruction_overflow :
    ∃ t, step { running [0] [1, 0x7FFFFFFF] with params := trapParams } = .next t ∧ t.cause = some .arithmeticOverflow :=
  answers (by decide)
theorem witness_StackUnderflowExactly_raises :
    (running [0] [1]).depth < Instr.add.pops ∧ (running [6] []).depth < Instr.output.pops := by decide
theorem witness_StackUnderflowExactly_raised :
    ∃ t, exec (.popReg .a) (running [] []) = .next t ∧ t.cause = some .stackUnderflow := answers (by decide)
theorem witness_StackOverflowExactly_raises :
    ∃ s : State, s.params.stackDepth = some 3 ∧ s.depth = 3 ∧ s.awaiting = none := ⟨running [] [1, 2, 3], rfl, rfl, rfl⟩
theorem witness_StackOverflowExactly_raised :
    ∃ t, exec .input (running [] [1, 2, 3]) = .next t ∧ t.cause = some .stackOverflow := answers (by decide)
theorem witness_DivisionByZeroRaised : (running [3] [0, 0]).stack = 0 :: 0 :: [] := rfl
theorem witness_ArithmeticOverflowInTrapMode_wrap :
    ∃ t, exec .add (running [0] [1, 0x7FFFFFFF]) = .next t ∧ t.cause = none := answers (by decide)
theorem witness_ArithmeticOverflowInTrapMode_trap :
    ¬(-2 ^ 31 ≤ sint 0x7FFFFFFF + sint 1 ∧ sint 0x7FFFFFFF + sint 1 ≤ 2 ^ 31 - 1) ∧
    ¬(-2 ^ 31 ≤ sint 0x80000000 - sint 1 ∧ sint 0x80000000 - sint 1 ≤ 2 ^ 31 - 1) ∧
    ¬(-2 ^ 31 ≤ sint 0x80000000 * sint (-1) ∧ sint 0x80000000 * sint (-1) ≤ 2 ^ 31 - 1) ∧
    sint 0x80000000 = -2 ^ 31 ∧ sint (-1) = -1 ∧ trapParams.overflow = .trap := by decide

theorem witness_AddCompletesOrRaises :
    (running [0] [1]).depth < 2 ∧ testParams.overflow = .wrap ∧ trapParams.overflow = .trap ∧
    (-2 ^ 31 ≤ sint 0x7FFFFFFE + sint 1 ∧ sint 0x7FFFFFFE + sint 1 ≤ 2 ^ 31 - 1) ∧
    ¬(-2 ^ 31 ≤ sint 0x7FFFFFFF + sint 1 ∧ sint 0x7FFFFFFF + sint 1 ≤ 2 ^ 31 - 1) := by decide
theorem witness_SubCompletesOrRaises :
    (running [1] [1]).depth < 2 ∧ (-2 ^ 31 ≤ sint 0x80000001 - sint 1 ∧ sint 0x80000001 - sint 1 ≤ 2 ^ 31 - 1) ∧
    ¬(-2 ^ 31 ≤ sint 0 - sint 0x80000000 ∧ sint 0 - sint 0x80000000 ≤ 2 ^ 31 - 1) := by decide
theorem witness_MulCompletesOrRaises :
    (running [2] []).depth < 2 ∧ (-2 ^ 31 ≤ sint 0x80000000 * sint 1 ∧ sint 0x80000000 * sint 1 ≤ 2 ^ 31 - 1) ∧
    ¬(-2 ^ 31 ≤ sint 0x7FFFFFFF * sint 2 ∧ sint 0x7FFFFFFF * sint 2 ≤ 2 ^ 31 - 1) := by decide
theorem witness_DivCompletesOrRaises :
    (running [3] [0]).depth < 2 ∧ sint 0 = 0 ∧ (sint (-1) ≠ 0 ∧ ¬(sint 0x80000001 = -2 ^ 31 ∧ sint (-1) = -1)) ∧
    (sint 0x80000000 = -2 ^ 31 ∧ sint (-1) = -1 ∧ testParams.overflow = .wrap ∧ trapParams.overflow = .trap) := by decide
theorem witness_ModCompletesOrRaises :
    (running [4] [0]).depth < 2 ∧ sint 0 = 0 ∧ (sint 1 ≠ 0 ∧ ¬(sint 0x80000000 = -2 ^ 31 ∧ sint 1 = -1)) ∧
    (sint 0x80000000 = -2 ^ 31 ∧ sint (-1) = -1 ∧ testParams.overflow = .wrap ∧ trapParams.overflow = .trap) := by decide
theorem witness_DivAndModAgree :
    (∃ t, exec .div (running [3] [2, -7]) = .next t ∧ t.stack = -3 :: [] ∧ t.runState = .running) ∧
    ∃ u, exec .mod (running [3] [2, -7]) = .next u ∧ u.stack = -1 :: [] := ⟨answers (by decide), answers (by decide)⟩
theorem witness_ArithmeticFrame :
    (∃ t, exec .mod (running [4] [2, -7]) = .next t ∧ t.stack = [-1]) ∧
    ∃ t, exec .mod (running [4] [0, -7]) = .next t ∧ t.runState = .faulted := ⟨answers (by decide), answers (by decide)⟩

theorem witness_PushImmCompletesOrRaises :
    (∃ s : State, ∀ n, s.params.stackDepth = some n → s.depth < n) ∧ ∃ s : State, s.params.stackDepth = some s.depth :=
  ⟨⟨running [] [1, 2], fun n h => by cases h; decide⟩, ⟨running [] [1, 2, 3], rfl⟩⟩
theorem witness_PushRegCompletesOrRaises :
    (∃ s : State, ∀ n, s.params.stackDepth = some n → s.depth < n) ∧ ∃ s : State, s.params.stackDepth = some s.depth :=
  ⟨⟨State.reset, nofun⟩, ⟨running [] [1, 2, 3], rfl⟩⟩
theorem witness_PopRegCompletesOrRaises :
    (∃ s : State, s.stack = []) ∧ ∃ s : State, s.stack = 5 :: [] := ⟨⟨running [] [], rfl⟩, ⟨running [] [5], rfl⟩⟩
theorem witness_TransferFrame :
    (∃ t, exec (.popReg .d) (running [10, 3] [5]) = .next t ∧ t.x.d = 5 ∧ t.stack = []) ∧
    (∃ t, exec (.pushImm 5) (running [] []) = .next t ∧ t.stack = [5]) ∧
    ∃ t, exec (.pushReg .a) (running [9, 0] [1, 2, 3]) = .next t ∧ t.runState = .faulted :=
  ⟨answers (by decide), answers (by decide), answers (by decide)⟩
theorem witness_OnlyPushRegAndPopRegReachRegisters :
    (∃ t, exec .halt (running [7] []) = .next t ∧ t.x.a = 0) ∧
    (∃ t, exec (.popReg .b) (running [] [5]) = .next t ∧ t.x.b = 5) ∧
    (running [] [5]).stack = 5 :: [] ∧ ∀ n, (running [] [5]).params.stackDepth = some n → (running [] [5]).depth ≤ n :=
  ⟨answers (by decide), answers (by decide), rfl, fun n h => by cases h; decide⟩
theorem witness_PushThenPopIsNeutral : ∀ n, (running [] [1, 2]).params.stackDepth = some n → (running [] [1, 2]).depth < n :=
  fun n h => by cases h; decide
theorem witness_DepthStaysBounded :
    (running [9, 0] [1, 2]).awaitingOk = true ∧ (running [9, 0] [1, 2]).params.stackDepth = some 3 ∧
    (running [9, 0] [1, 2]).depth ≤ 3 ∧ ∃ t, step (running [9, 0] [1, 2]) = .next t ∧ t.depth = 3 :=
  ⟨rfl, rfl, by decide, answers (by decide)⟩
theorem witness_StackEffectByInstruction :
    ∃ t, exec .sub (running [1] [3, 10]) = .next t ∧ t.pc ≠ (running [1] [3, 10]).pc := answers (by decide)

theorem witness_OutputWritesTheTop :
    ∀ a ∈ [some OutAnswer.ok, some OutAnswer.err, none],
      ∃ s : State, s.stack = 0x80000000 :: [] ∧ s.outAnswers = a :: [some .ok] :=
  fun a _ => ⟨{ running [6] [0x80000000] with outAnswers := a :: [some .ok] }, rfl, rfl⟩
theorem witness_InputBeginsWithThePrompt :
    ∀ a ∈ [some OutAnswer.ok, some OutAnswer.err, none],
      ∃ s : State, s.awaiting = none ∧ (∀ n, s.params.stackDepth = some n → s.depth < n) ∧ s.outAnswers = a :: [] :=
  fun a _ => ⟨{ running [5] [1, 2] with outAnswers := a :: [] }, rfl, fun n h => by cases h; exact Nat.lt_succ_self 2, rfl⟩
theorem witness_InputCompletesOnAnInteger :
    (reading (ascii ['7'])).awaiting = some .line ∧ (reading (ascii ['7'])).inAnswers = some (.line (ascii ['7'])) :: [] ∧
    parseInt32 (ascii ['7']) = some 7 := ⟨rfl, rfl, by decide⟩
theorem witness_InputRejectsALine_goes_on :
    parseInt32 (ascii ['x']) = none ∧ ∀ k, (reading (ascii ['x'])).params.maxInputRetries = some k →
      (reading (ascii ['x'])).rejected + 1 ≤ k :=
  ⟨by decide, fun k h => by cases h; decide⟩
theorem witness_InputRejectsALine_limit :
    ∃ s : State, s.awaiting = some .line ∧ s.params.maxInputRetries = some 1 ∧
      1 < s.rejected + 1 := ⟨{ reading [] with rejected := 1 }, rfl, rfl, by decide⟩
theorem witness_PortAnswersAndWaits_write :
    ∀ a ∈ [some OutAnswer.ok, some OutAnswer.err, none],
      (∃ s : State, s.awaiting = some .prompt ∧ s.outAnswers = a :: []) ∧
      ∃ s : State, s.awaiting = some .retry ∧ s.outAnswers = a :: [] :=
  fun a _ => ⟨⟨{ reading [] with awaiting := some .prompt, outAnswers := [a] }, rfl, rfl⟩,
    ⟨{ reading [] with awaiting := some .retry, outAnswers := [a] }, rfl, rfl⟩⟩
theorem witness_PortAnswersAndWaits_read :
    ∀ a ∈ [some InAnswer.err, some InAnswer.eof, none], ∃ s : State, s.awaiting = some .line ∧ s.inAnswers = a :: [] :=
  fun a _ => ⟨{ reading [] with inAnswers := [a] }, rfl, rfl⟩
theorem witness_PortAnswersAndWaits_output :
    ∃ s : State, s.stack ≠ [] ∧ s.outAnswers.head? = some none := ⟨{ running [6] [9] with outAnswers := [none] }, nofun, rfl⟩
theorem witness_PortInstructionFrame :
    (∃ t, exec .input (reading (ascii ['7'])) = .next t ∧ t.pc = 1) ∧
    ∃ t, exec .output { running [6] [9] with outAnswers := [some .ok] } = .next t ∧ t.pc = 1 :=
  ⟨answers (by decide), answers (by decide)⟩
theorem witness_TraceIsNeverUndone :
    (reading (ascii ['7'])).signals.rst = false ∧ ∃ t, step (reading (ascii ['7'])) = .next t ∧
      t.trace = [] ++ [.inp (.line (ascii ['7']))] := ⟨rfl, answers (by decide)⟩
theorem witness_ThreeKindsOfOutput :
    ({ running [5] [] with outAnswers := [some .ok] } : State).Inv ∧
    ∃ t, step { running [5] [] with outAnswers := [some .ok] } = .next t ∧ t.trace = [] ++ [.out (ascii ['?']) .ok] :=
  ⟨{ running_inv [5] (by decide) (by decide) with idle := nofun }, answers (by decide)⟩
theorem witness_DecimalTextReadsBack : (∀ b ∈ [(0x20 : Byte), 0x09], isSpace b = true) ∧ ∀ b ∈ [(0x0D : Byte)], isSpace b = true := by
  decide
/-- INPUT about to begin, with a host that will send one bad line and then a number. -/
def asking : State :=
  { running [5] [] with
    outAnswers := [some .ok, some .ok]
    inAnswers := [some (.line (ascii ['x'])), some (.line (ascii ['7']))] }
theorem witness_InputRunsToCompletion :
    asking.runState = .running ∧ asking.control = [] ∧ asking.awaiting = none ∧ asking.fetch = .instr .input ∧
    (∀ n, asking.params.stackDepth = some n → asking.depth < n) ∧ (∀ t ∈ [ascii ['x']], parseInt32 t = none) ∧
    parseInt32 (ascii ['7']) = some 7 ∧ (∀ k, asking.params.maxInputRetries = some k → [ascii ['x']].length ≤ k) ∧
    asking.outAnswers = List.replicate ([ascii ['x']].length + 1) (some .ok) ∧
    asking.inAnswers = ([ascii ['x']] ++ [ascii ['7']]).map (fun t => some (.line t)) ∧
    asking.waitInput = false ∧ asking.rejected = 0 :=
  ⟨rfl, rfl, rfl, by decide, fun n h => by cases h; decide, by decide, by decide, fun k h => by cases h; decide, rfl, rfl, rfl,
    rfl⟩
theorem witness_ObservePort :
    (1 : Bits32).toNat < (running [] [1, 2]).depth ∧ (running [] [1, 2]).depth ≤ (2 : Bits32).toNat ∧ 9 ≤ (9 : Byte).toNat := by
  decide
theorem witness_ParseCollectsEveryError :
    parsed ['\n', ' '] = .inl [] ∧ parsed ['A', 'D', 'D'] = .inl [⟨.add⟩] ∧
    parsed ['A', 'D', 'D', '\n', 'X'] = .inr [(2, .unknownOperation (ascii ['X']) 0)] := by decide
theorem witness_StepKeepsTheInvariant : (running [8, 0, 0, 0, 2] []).Inv := running_inv _ (by decide) (by decide)
theorem witness_TheTwoModesAgree :
    ∃ s : State, s.params.opcodes.wf = true ∧ s.program = [⟨.pushImm 2⟩, ⟨.halt⟩] ∧
      decodeProgram s.params.opcodes s.programBytes = .ok s.program ∧ (∀ c ∈ s.control, c.rst = false) ∧ s.control ≠ [] :=
  ⟨{ idle [8, 0, 0, 0, 2, 7] with program := [⟨.pushImm 2⟩, ⟨.halt⟩], control := [{ cancel := true }] }, by decide, rfl, rfl,
    by decide, nofun⟩
/-- A host that answers late, and one whose bad lines end, whatever the limit. -/
theorem witness_AnsweredRunsEnd_limit :
    ∃ s : State, s.Inv ∧ s.runState = .running ∧ (∀ c ∈ s.control, c.rst = false ∧ c.cancel = false) ∧
      s.params.maxInputRetries = some 1 ∧ (s.progEnd - s.pc.toNat) + (s.progEnd - s.pc.toNat) * 1 ≤ answersIn s.inAnswers ∧
      (s.progEnd - s.pc.toNat) + (s.progEnd - s.pc.toNat) * 1 ≤ answersIn s.outAnswers ∧ s.inAnswers.head? = some none :=
  ⟨{ running [5] [] with
      inAnswers := [none, some (.line (ascii ['x'])), some (.line (ascii ['x']))], outAnswers := [some .ok, none, some .ok] },
    { running_inv [5] (by decide) (by decide) with idle := nofun }, rfl, nofun, rfl, by decide, by decide, rfl⟩
theorem witness_AnsweredRunsEnd_bad_lines :
    ∃ s : State, s.Inv ∧ s.runState = .running ∧ (∀ c ∈ s.control, c.rst = false ∧ c.cancel = false) ∧
      s.params.maxInputRetries = none ∧ s.badLines = 1 ∧ (s.progEnd - s.pc.toNat) + s.badLines ≤ answersIn s.inAnswers ∧
      (s.progEnd - s.pc.toNat) + s.badLines ≤ answersIn s.outAnswers :=
  ⟨{ running [5] [] with
      params := { testParams with maxInputRetries := none }
      inAnswers := [some (.line (ascii ['x'])), some .eof], outAnswers := [some .ok, some .ok] },
    { running_inv [5] (by decide) (by decide) with
      paramsWf := (by decide : Params.wf { testParams with maxInputRetries := none } = true), retries := rfl, idle := nofun },
    rfl, nofun, rfl, by decide, by decide, by decide⟩
theorem witness_ProvidedBytesAreTheProgram : State.reset.runState = .idle ∧ ([0, 7] : List Byte).length < 2 ^ 32 := by decide
theorem witness_PlacedWordIsRunNext :
    State.reset.mem.wf = true ∧ State.reset.params.opcodes = OpcodeMap.default ∧ 40 ≤ 40 ∧
    decodeTableWord 40 0x0880000000 = some (.pushImm 0x80000000) := ⟨rfl, rfl, by decide, by decide⟩

end Sys2Proof.Tests
end

section
/-! SUPPORT. What the decoder consumes, what a fetch finds, and why an instruction fetched ends within the program. -/

namespace Sys2Proof

theorem decodeRegOperand_ok_le {mk : Reg → Instr} {rest : List Byte} {i : Instr} {n : Nat}
    (h : decodeRegOperand mk rest = .ok (i, n)) : n ≤ rest.length + 1 := by
  cases rest with
  | nil => cases h
  | cons b rest =>
    simp only [decodeRegOperand, decodeRegister] at h
    cases hb : Reg.ofByte b <;> simp only [hb] at h <;> cases h
    simp

theorem decodeRegOperand_error {mk : Reg → Instr} {rest : List Byte} {e : DecodeError}
    (h : decodeRegOperand mk rest = .error e) :
    (e = .endOfInput ∧ rest.length < 4) ∨ ∃ b, e = .wrongRegister b ∧ 4 ≤ b.toNat := by
  cases rest with
  | nil => cases h; exact .inl ⟨rfl, by simp⟩
  | cons b rest =>
    simp only [decodeRegOperand, decodeRegister] at h
    cases hb : Reg.ofByte b <;> simp only [hb] at h <;> cases h
    exact .inr ⟨b, rfl, (Reg.ofByte_eq_none b).1 hb⟩

theorem decodeImmOperand_ok_le {rest : List Byte} {i : Instr} {n : Nat} (h : decodeImmOperand rest = .ok (i, n)) :
    n ≤ rest.length + 1 := by
  match rest with
  | _ :: _ :: _ :: _ :: _ => cases h; simp
  | [] | [_] | [_, _] | [_, _, _] => cases h

theorem decodeImmOperand_error {rest : List Byte} {e : DecodeError} (h : decodeImmOperand rest = .error e) :
    e = .endOfInput ∧ rest.length < 4 := by
  match rest with
  | _ :: _ :: _ :: _ :: _ => cases h
  | [] | [_] | [_, _] | [_, _, _] => cases h; simp

/-- The operand is read from bytes that are there. -/
theorem decodeOperands_ok_le {k : Kind} {rest : List Byte} {i : Instr} {n : Nat} (h : decodeOperands k rest = .ok (i, n)) :
    n ≤ rest.length + 1 := by
  cases k
  case pushImm => exact decodeImmOperand_ok_le h
  case pushReg | popReg => exact decodeRegOperand_ok_le h
  all_goals cases h; omega

theorem decodeOperands_error {k : Kind} {rest : List Byte} {e : DecodeError} (h : decodeOperands k rest = .error e) :
    (e = .endOfInput ∧ rest.length < 4) ∨ ∃ b, e = .wrongRegister b ∧ 4 ≤ b.toNat := by
  cases k
  case pushImm => exact .inl (decodeImmOperand_error h)
  case pushReg | popReg => exact decodeRegOperand_error h
  all_goals cases h

/-- A decoded instruction is as long as the bytes consumed, and they are there (30_encoding.md R74). -/
theorem decodeInstruction_ok_length {m : OpcodeMap} {bytes : List Byte} {i : Instr} {n : Nat}
    (h : decodeInstruction m bytes = .ok (i, n)) : i.length ≤ bytes.length := by
  obtain ⟨rfl, b, rest, rfl, -, hop⟩ := decodeInstruction_ok h
  exact decodeOperands_ok_le hop

/-- What each decode error says of the bytes (30_encoding.md R73, 10_state.md R37). -/
theorem decodeInstruction_error {m : OpcodeMap} (hm : m.wf = true) {bytes : List Byte} {e : DecodeError}
    (h : decodeInstruction m bytes = .error e) :
    (e = .endOfInput ∧ bytes.length < 5) ∨ (∃ b, e = .wrongOpCode b ∧ 11 ≤ b.toNat) ∨
      ∃ b, e = .wrongRegister b ∧ 4 ≤ b.toNat := by
  cases bytes with
  | nil => cases h; exact .inl ⟨rfl, by simp⟩
  | cons b rest =>
    rw [decodeInstruction_cons] at h
    cases hk : m.kindOf b with
    | none =>
      simp only [hk] at h
      cases h
      exact .inr (.inl ⟨b, rfl, (OpcodeMap.kindOf_eq_none hm b).1 hk⟩)
    | some k =>
      simp only [hk] at h
      rcases decodeOperands_error h with ⟨rfl, hl⟩ | hr
      · exact .inl ⟨rfl, Nat.succ_lt_succ hl⟩
      · exact .inr (.inr hr)

end Sys2Proof

namespace Sys2Proof.Machine

variable {s : State}

theorem State.window_length (s : State) : s.window.length = s.avail := by
  simp [State.window, State.bytesAt]

/-- What a fetch finds, and where (40_execution_cycle.md R102–R104). -/
theorem State.fetch_cases (s : State) :
    (s.fetch = .endOfProgram ∧ s.pc.toNat = s.progEnd) ∨
    (s.fetch = .outside ∧ s.progEnd < s.pc.toNat) ∨
    (s.mode = .byte ∧ s.pc.toNat < s.progLen.toNat ∧
      ((∃ i n, decodeInstruction s.params.opcodes s.window = .ok (i, n) ∧ s.fetch = .instr i) ∨
        ∃ e, decodeInstruction s.params.opcodes s.window = .error e ∧ s.fetch = .malformed e)) ∨
    (s.mode = .decoded ∧ s.pc.toNat < s.program.length ∧ ∃ i, s.fetch = .instr i) := by
  cases hm : s.mode with
  | byte =>
    simp only [State.fetch_byte hm, State.fetchByte, State.progEnd, hm]
    by_cases he : s.pc = s.progLen
    · simp [he]
    · have hne : s.pc.toNat ≠ s.progLen.toNat := fun h => he (BitVec.eq_of_toNat_eq h)
      rw [if_neg he]
      by_cases ho : s.progLen.toNat < s.pc.toNat
      · simp [ho]
      · rw [if_neg ho]
        have hlt : s.pc.toNat < s.progLen.toNat := by omega
        rcases hd : decodeInstruction s.params.opcodes s.window with e | ⟨i, n⟩ <;> simp [hlt]
  | decoded =>
    simp only [State.fetch_decoded hm, State.fetchDecoded, State.progEnd, hm]
    by_cases he : s.pc.toNat = s.program.length
    · simp [he]
    · rw [if_neg he]
      cases hp : s.program[s.pc.toNat]? with
      | none =>
        have : s.program.length ≤ s.pc.toNat := List.getElem?_eq_none_iff.1 hp
        have : s.program.length < s.pc.toNat := by omega
        simp [this]
      | some st =>
        have : s.pc.toNat < s.program.length := (List.getElem?_eq_some_iff.1 hp).1
        simp [this]

/-- From within the program no fetch falls outside it (10_state.md R32; log 11). -/
theorem State.fetch_ne_outside (hpc : s.pc.toNat ≤ s.progEnd) : s.fetch ≠ .outside := by
  intro h
  rcases s.fetch_cases with ⟨hf, -⟩ | ⟨-, ho⟩ | ⟨-, -, ⟨_, _, -, hf⟩ | ⟨_, -, hf⟩⟩ | ⟨-, -, _, hf⟩
  case inr.inl => omega
  all_goals simp [hf] at h

theorem State.len_toNat (s : State) (i : Instr) : (s.len i).toNat = if s.mode = .byte then i.length else 1 := by
  unfold State.len
  rcases i.length_eq with h | h | h <;> cases s.mode <;> simp [h]

theorem State.len_pos (s : State) (i : Instr) : 0 < (s.len i).toNat := by
  rw [State.len_toNat]
  rcases i.length_eq with h | h | h <;> split <;> omega

/-- The instruction fetched ends within the program (10_state.md R32). -/
theorem State.pc_add_len_le {i : Instr} (h : s.fetch = .instr i) : s.pc.toNat + (s.len i).toNat ≤ s.progEnd := by
  rcases s.fetch_cases with ⟨hf, -⟩ | ⟨hf, -⟩ | ⟨hm, -, ⟨j, n, hd, hf⟩ | ⟨_, -, hf⟩⟩ | ⟨hm, hlt, j, -⟩
  case inr.inr.inl.inl =>
    cases h.symm.trans hf
    have hl := decodeInstruction_ok_length hd
    rw [State.window_length, State.avail] at hl
    have hpos := s.len_pos i
    simp only [State.len_toNat, State.progEnd, hm, if_true] at hpos ⊢
    omega
  case inr.inr.inr =>
    simp only [State.len_toNat, State.progEnd, hm]
    simpa using hlt
  all_goals simp [hf] at h

/-- Past the instruction fetched the pc does not wrap (10_state.md R32). -/
theorem State.pc_add_len_toNat {i : Instr} (hp : Program.wf s.program = true) (h : s.fetch = .instr i) :
    (s.pc + s.len i).toNat = s.pc.toNat + (s.len i).toNat := by
  have hle := State.pc_add_len_le h
  have hend : s.progEnd < 2 ^ 32 := by
    unfold State.progEnd
    split
    · exact s.progLen.isLt
    · simpa [Program.wf] using hp
  rw [BitVec.toNat_add, Nat.mod_eq_of_lt (by omega)]

/-- A decode error is raised with a FAULT_INFO its cause allows (10_state.md R37). -/
theorem State.raiseDecode_eq {e : DecodeError} (hm : s.params.opcodes.wf = true) (h : s.fetch = .malformed e) :
    ∃ (x : Exception) (n : Byte), x.allowsInfo n = true ∧ s.raiseDecode e = s.raise x n := by
  rcases s.fetch_cases with ⟨hf, -⟩ | ⟨hf, -⟩ | ⟨-, hlt, ⟨_, _, -, hf⟩ | ⟨e', hd, hf⟩⟩ | ⟨-, -, _, hf⟩
  case inr.inr.inl.inr =>
    cases h.symm.trans hf
    rcases decodeInstruction_error hm hd with ⟨rfl, hl⟩ | ⟨b, rfl, hb⟩ | ⟨b, rfl, hb⟩
    · refine ⟨_, _, ?_, rfl⟩
      rw [State.window_length, State.avail] at hl
      simp only [Exception.allowsInfo, BitVec.toNat_ofNat, Bool.and_eq_true, decide_eq_true_eq]
      omega
    · exact ⟨_, _, by simpa [Exception.allowsInfo] using hb, rfl⟩
    · exact ⟨_, _, by simpa [Exception.allowsInfo] using hb, rfl⟩
  all_goals simp [hf] at h

end Sys2Proof.Machine
end


section
/-! SUPPORT. Every instruction answers a next state; what an instruction does to the stack and to the open transaction, said once
over all eleven, beside `ExecEnds`, which leaves both unsaid. -/

namespace Sys2Proof.Machine

variable {s t : State}

/-! Every instruction answers a next state. -/

theorem binop_next (i : Instr) (f : Bits32 → Bits32 → Alu) (s : State) : ∃ t, binop i f s = .next t := by
  unfold binop
  split
  · split <;> exact ⟨_, rfl⟩
  · exact ⟨_, rfl⟩

theorem pushOperand_next (i : Instr) (v : Bits32) (s : State) : ∃ t, pushOperand i v s = .next t := by
  unfold pushOperand
  split <;> exact ⟨_, rfl⟩

theorem outWrite_next {text : Text} {k : OutAnswer → State → Result} (hk : ∀ a q, ∃ t, k a q = .next t) (s : State) :
    ∃ t, outWrite text k s = .next t := by
  unfold outWrite
  split
  · exact ⟨_, rfl⟩
  · exact ⟨_, rfl⟩
  · exact hk _ _

theorem inRead_next {k : InAnswer → State → Result} (hk : ∀ a q, ∃ t, k a q = .next t) (s : State) :
    ∃ t, inRead k s = .next t := by
  unfold inRead
  split
  · exact ⟨_, rfl⟩
  · exact ⟨_, rfl⟩
  · exact hk _ _

theorem inputWritten_next (a : OutAnswer) (s : State) : ∃ t, inputWritten a s = .next t := by
  cases a <;> exact ⟨_, rfl⟩

theorem outputAnswered_next (rest : List Bits32) (a : OutAnswer) (s : State) : ∃ t, outputAnswered rest a s = .next t := by
  cases a <;> exact ⟨_, rfl⟩

theorem inputRejected_next (s : State) : ∃ t, inputRejected s = .next t := by
  unfold inputRejected
  split <;> exact ⟨_, rfl⟩

theorem inputAnswered_next (a : InAnswer) (s : State) : ∃ t, inputAnswered a s = .next t := by
  unfold inputAnswered
  split
  · exact ⟨_, rfl⟩
  · exact ⟨_, rfl⟩
  · split
    · exact ⟨_, rfl⟩
    · exact inputRejected_next s

theorem inputBegin_next (s : State) : ∃ t, inputBegin s = .next t := by
  unfold inputBegin
  split
  · exact ⟨_, rfl⟩
  · exact outWrite_next inputWritten_next _

theorem execInput_next (s : State) : ∃ t, execInput s = .next t := by
  unfold execInput
  split
  · exact outWrite_next inputWritten_next _
  · exact inRead_next inputAnswered_next _
  · exact outWrite_next inputWritten_next _
  all_goals exact inputBegin_next s

theorem execOutput_next (s : State) : ∃ t, execOutput s = .next t := by
  unfold execOutput
  split
  · exact ⟨_, rfl⟩
  · exact outWrite_next (outputAnswered_next _) _

theorem execPopReg_next (r : Reg) (s : State) : ∃ t, execPopReg r s = .next t := by
  unfold execPopReg
  split <;> exact ⟨_, rfl⟩

theorem exec_next (i : Instr) (s : State) : ∃ t, exec i s = .next t := by
  cases i with
  | add | sub | mul | div | mod => exact binop_next _ _ s
  | input => exact execInput_next s
  | output => exact execOutput_next s
  | halt => exact ⟨_, rfl⟩
  | pushImm v => exact pushOperand_next _ v s
  | pushReg r => exact pushOperand_next _ _ s
  | popReg r => exact execPopReg_next r s

/-! The stack and the open transaction. -/

/-- What an instruction that completes leaves of the stack (10_state.md R26), and that there was room for it (R28): an INPUT in
progress is past its check. -/
structure StackStep (i : Instr) (s : State) (stack : List Bits32) : Prop where
  enough : i.pops ≤ s.depth
  kept : stack.drop i.pushes = s.stack.drop i.pops
  length : stack.length + i.pops = s.depth + i.pushes
  room : i.pushes ≤ i.pops ∨ s.full = false ∨ Awaiting.ofInput s.awaiting = true

/-- `WAIT_INPUT`, the rejected lines and the open transaction where an instruction goes on waiting. -/
inductive WaitsWith (s : State) : Instr → Bool → Nat → Awaiting → Prop where
  | output (hs : s.stack ≠ []) : WaitsWith s .output s.waitInput s.rejected .value
  | begun (hf : s.full = false) (a : Awaiting) (ha : Awaiting.ofInput (some a) = true) : WaitsWith s .input true 0 a
  | goesOn (ho : Awaiting.ofInput s.awaiting = true) (c : Nat)
    (hc : s.retriesExceeded c = false ∨ c = s.rejected) (a : Awaiting) (ha : Awaiting.ofInput (some a) = true) :
    WaitsWith s .input s.waitInput c a

/-- The same three where an instruction completes. -/
inductive ClosesWith (s : State) : Instr → Bool → Nat → Option Awaiting → Prop where
  | input : ClosesWith s .input false 0 none
  | output : ClosesWith s .output s.waitInput s.rejected none
  | other {i : Instr} (hi : i ≠ .input) (ho : i ≠ .output) : ClosesWith s i s.waitInput s.rejected s.awaiting

/-- The ways an instruction ends its step, with what they do to the stack and the open transaction. The trace, the host's
answers and, where it completes, the registers are free here: `ExecEnds` is about them. -/
inductive ExecEffect (i : Instr) (s : State) : State → Prop where
  | raised (tr : List Transaction) (ia : List (Option InAnswer)) (oa : List (Option OutAnswer)) (e : Exception) (n : Byte) :
    ExecEffect i s (({ s with trace := tr, inAnswers := ia, outAnswers := oa } : State).raise e n)
  | waits (tr : List Transaction) (ia : List (Option InAnswer)) (oa : List (Option OutAnswer)) {w : Bool} {c : Nat}
    {a : Awaiting} (hw : WaitsWith s i w c a) :
    ExecEffect i s { s with
      waitInput := w, rejected := c, awaiting := some a, trace := tr, inAnswers := ia, outAnswers := oa }
  | completes (tr : List Transaction) (ia : List (Option InAnswer)) (oa : List (Option OutAnswer)) (x : Regs)
    {stack : List Bits32} (hs : StackStep i s stack) {w : Bool} {c : Nat} {a : Option Awaiting} (hw : ClosesWith s i w c a) :
    ExecEffect i s { s with
      x := x, stack := stack, pc := s.pc + s.len i, waitInput := w, rejected := c, awaiting := a
      trace := tr, inAnswers := ia, outAnswers := oa
      runState := if i = .halt then .halted else s.runState }

/-- An instruction that completes without the ports. -/
theorem ExecEffect.silent {i : Instr} {x : Regs} {stack : List Bits32} (hs : StackStep i s stack) (hh : i ≠ .halt)
    (hi : i ≠ .input) (ho : i ≠ .output) :
    ExecEffect i s (({ s with x := x, stack := stack } : State).commit i) := by
  have := ExecEffect.completes s.trace s.inAnswers s.outAnswers x hs (.other hi ho)
  rwa [if_neg hh] at this

theorem binop_effect {i : Instr} {f : Bits32 → Bits32 → Alu} (hp : i.pops = 2) (hq : i.pushes = 1)
    (h : binop i f s = .next t) : ExecEffect i s t := by
  rcases binop_cases h with ⟨-, rfl⟩ | ⟨a, b, rest, hs, ⟨r, -, rfl⟩ | ⟨e, -, rfl⟩⟩
  · exact .raised s.trace s.inAnswers s.outAnswers _ _
  · have hst : StackStep i s (r :: rest) :=
      ⟨by simp [hp, State.depth, hs], by simp [hp, hq, hs], by simp [hp, hq, State.depth, hs], .inl (by omega)⟩
    exact .silent hst (by rintro rfl; cases hp) (by rintro rfl; cases hp) (by rintro rfl; cases hp)
  · exact .raised s.trace s.inAnswers s.outAnswers _ _

theorem pushOperand_effect {i : Instr} {v : Bits32} (hp : i.pops = 0) (hq : i.pushes = 1) (hi : i ≠ .input)
    (h : pushOperand i v s = .next t) : ExecEffect i s t := by
  rcases pushOperand_cases h with ⟨-, rfl⟩ | ⟨hf, rfl⟩
  · exact .raised s.trace s.inAnswers s.outAnswers _ _
  · have hst : StackStep i s (v :: s.stack) :=
      ⟨by simp [hp], by simp [hp, hq], by simp [hp, hq, State.depth], .inr (.inl hf)⟩
    exact .silent hst (by rintro rfl; cases hq) hi (by rintro rfl; cases hq)

theorem execPopReg_effect {r : Reg} (h : execPopReg r s = .next t) : ExecEffect (.popReg r) s t := by
  rcases execPopReg_cases h with ⟨-, rfl⟩ | ⟨v, rest, hs, rfl⟩
  · exact .raised s.trace s.inAnswers s.outAnswers _ _
  · have hst : StackStep (.popReg r) s rest :=
      ⟨by simp [Instr.pops, State.depth, hs], by simp [Instr.pops, Instr.pushes, hs],
        by simp [Instr.pops, Instr.pushes, State.depth, hs], .inl (by simp [Instr.pushes])⟩
    exact .silent hst nofun nofun nofun

theorem execHalt_effect (h : execHalt s = .next t) : ExecEffect .halt s t := by
  cases h
  exact .completes s.trace s.inAnswers s.outAnswers s.x ⟨Nat.zero_le _, rfl, rfl, .inl (Nat.zero_le _)⟩ (.other nofun nofun)

theorem execOutput_effect (h : execOutput s = .next t) : ExecEffect .output s t := by
  rcases execOutput_cases h with ⟨-, rfl⟩ | ⟨v, rest, hs, ⟨-, rfl⟩ | ⟨later, -, rfl⟩ | ⟨later, -, rfl⟩⟩
  · exact .raised s.trace s.inAnswers s.outAnswers _ _
  · exact .waits s.trace s.inAnswers _ (.output (by simp [hs]))
  · have hst : StackStep .output s rest :=
      ⟨by simp [Instr.pops, State.depth, hs], by simp [Instr.pops, Instr.pushes, hs],
        by simp [Instr.pops, Instr.pushes, State.depth, hs], .inl (by simp [Instr.pushes])⟩
    exact .completes _ s.inAnswers later s.x hst .output
  · exact .raised _ s.inAnswers later _ _

theorem inputBegin_effect (h : inputBegin s = .next t) : ExecEffect .input s t := by
  rcases inputBegin_cases h with ⟨-, rfl⟩ | ⟨hf, ⟨-, rfl⟩ | ⟨later, -, rfl⟩ | ⟨later, -, rfl⟩⟩
  · exact .raised s.trace s.inAnswers s.outAnswers _ _
  · exact .waits s.trace s.inAnswers _ (.begun hf .prompt rfl)
  · exact .waits _ s.inAnswers later (.begun hf .line rfl)
  · exact .raised _ s.inAnswers later _ _

theorem outWrite_inputWritten_effect {text : Text} {w : Awaiting} (hw : s.awaiting = some w)
    (ho : Awaiting.ofInput (some w) = true) (h : outWrite text inputWritten s = .next t) : ExecEffect .input s t := by
  have hs : Awaiting.ofInput s.awaiting = true := hw ▸ ho
  rcases outWrite_inputWritten_cases h with ⟨-, rfl⟩ | ⟨later, -, rfl⟩ | ⟨later, -, rfl⟩
  · have := ExecEffect.waits s.trace s.inAnswers s.outAnswers.tail (.goesOn hs s.rejected (.inr rfl) w ho)
    rwa [← hw] at this
  · exact .waits _ s.inAnswers later (.goesOn hs s.rejected (.inr rfl) .line rfl)
  · exact .raised _ s.inAnswers later _ _

theorem inRead_inputAnswered_effect (hw : s.awaiting = some .line) (h : inRead inputAnswered s = .next t) :
    ExecEffect .input s t := by
  have hs : Awaiting.ofInput s.awaiting = true := hw ▸ rfl
  rcases inRead_inputAnswered_cases h with
    ⟨-, rfl⟩ | ⟨a, later, -, ⟨n, -, rfl⟩ | ⟨line, v, -, -, rfl⟩ | ⟨line, -, -, hr, rfl⟩⟩
  · have := ExecEffect.waits s.trace s.inAnswers.tail s.outAnswers (.goesOn hs s.rejected (.inr rfl) .line rfl)
    rwa [← hw] at this
  · exact .raised _ later s.outAnswers _ _
  · have hst : StackStep .input s (v :: s.stack) := ⟨Nat.zero_le _, rfl, rfl, .inr (.inr hs)⟩
    exact .completes _ later s.outAnswers s.x hst .input
  · exact .waits _ later s.outAnswers (.goesOn hs _ (.inl hr) .retry rfl)

theorem execInput_effect (h : execInput s = .next t) : ExecEffect .input s t := by
  rcases execInput_cases h with ⟨-, h⟩ | ⟨ha, h⟩ | ⟨ha, h⟩ | ⟨ha, h⟩
  · exact inputBegin_effect h
  · exact outWrite_inputWritten_effect ha rfl h
  · exact inRead_inputAnswered_effect ha h
  · exact outWrite_inputWritten_effect ha rfl h

/-- What an instruction does to the stack and the open transaction. -/
theorem exec_effect {i : Instr} (h : exec i s = .next t) : ExecEffect i s t := by
  cases i with
  | add | sub | mul | div | mod => exact binop_effect rfl rfl h
  | input => exact execInput_effect h
  | output => exact execOutput_effect h
  | halt => exact execHalt_effect h
  | pushImm v => exact pushOperand_effect rfl rfl nofun h
  | pushReg r => exact pushOperand_effect rfl rfl nofun h
  | popReg r => exact execPopReg_effect h

end Sys2Proof.Machine
end


section
/-! SUPPORT. The clauses of the invariant as propositions, and the invariant across each way a step ends. -/

namespace Sys2Proof

theorem Instr.pushes_le_one (i : Instr) : i.pushes ≤ 1 := by cases i <;> simp [Instr.pushes]

end Sys2Proof

namespace Sys2Proof.Machine

variable {s t : State}

/-! The clauses. -/

theorem State.depthOk_iff : s.depthOk = true ↔ ∀ n, s.params.stackDepth = some n → s.depth ≤ n := by
  unfold State.depthOk
  cases s.params.stackDepth <;> simp

theorem State.hiddenOk_iff :
    s.hiddenOk = true ↔
      s.waitInput = Awaiting.ofInput s.awaiting ∧ (Awaiting.ofInput s.awaiting = false → s.rejected = 0) := by
  simp only [State.hiddenOk, Bool.and_eq_true, decide_eq_true_eq, Bool.or_eq_true]
  refine and_congr_right fun h => ?_
  rw [h]
  cases Awaiting.ofInput s.awaiting <;> simp

/-- Which transaction a core may have open (70_reset_and_hazards.md R170). -/
theorem State.awaitingOk_iff :
    s.awaitingOk = true ↔ s.awaiting = none ∨
      (s.awaiting = some .value ∧ s.runState = .running ∧ s.fetch = .instr .output ∧ s.stack ≠ []) ∨
      (Awaiting.ofInput s.awaiting = true ∧ s.runState = .running ∧ s.fetch = .instr .input ∧ s.full = false) := by
  unfold State.awaitingOk
  cases s.awaiting with
  | none => simp
  | some a => cases a <;> simp [Awaiting.ofInput, and_assoc]

/-- Outside FAULTED the fault record is empty (10_state.md R36–R38). -/
theorem State.faultRecordOk_iff (h : s.runState ≠ .faulted) :
    s.faultRecordOk = true ↔ s.cause = none ∧ s.faultInfo = 0 ∧ s.faultPc = 0 := by
  unfold State.faultRecordOk
  cases s.cause <;> simp [h]

/-- With an instruction fetched, the transaction open is that instruction's own. -/
theorem State.awaiting_of_fetch {i : Instr} (ha : s.awaitingOk = true) (hf : s.fetch = .instr i) :
    s.awaiting = none ∨ (s.awaiting = some .value ∧ i = .output) ∨
      (Awaiting.ofInput s.awaiting = true ∧ i = .input ∧ s.full = false) := by
  rcases State.awaitingOk_iff.1 ha with h | ⟨h, -, hi, -⟩ | ⟨h, -, hi, hfull⟩
  · exact .inl h
  · cases hf.symm.trans hi; exact .inr (.inl ⟨h, rfl⟩)
  · cases hf.symm.trans hi; exact .inr (.inr ⟨h, rfl, hfull⟩)

/-! The depth. -/

/-- An instruction that completes keeps the depth within `STACK_DEPTH` (10_state.md R25, R28). -/
theorem StackStep.length_le {i : Instr} {stack : List Bits32} {n : Nat} (h : StackStep i s stack) (hf : s.fetch = .instr i)
    (ha : s.awaitingOk = true) (hn : s.params.stackDepth = some n) (hd : s.depth ≤ n) : stack.length ≤ n := by
  have hl := h.length
  have one := i.pushes_le_one
  have notFull : s.full = false → stack.length ≤ n := fun hfull => by
    have := State.full_eq_false.1 hfull n hn
    omega
  rcases h.room with hp | hfull | hin
  · omega
  · exact notFull hfull
  · rcases State.awaiting_of_fetch ha hf with h0 | ⟨h0, -⟩ | ⟨-, -, hfull⟩
    · simp [h0, Awaiting.ofInput] at hin
    · simp [h0, Awaiting.ofInput] at hin
    · exact notFull hfull

theorem ExecEffect.depth_le {i : Instr} {n : Nat} (h : ExecEffect i s t) (hf : s.fetch = .instr i)
    (ha : s.awaitingOk = true) (hn : s.params.stackDepth = some n) (hd : s.depth ≤ n) : t.depth ≤ n := by
  cases h with
  | raised | waits => exact hd
  | completes _ _ _ _ hs => exact hs.length_le hf ha hn hd

/-- From within the depth every step ends within it. -/
theorem State.cycle_depth_le {c : Signals} {n : Nat} (ha : s.awaitingOk = true) (hn : s.params.stackDepth = some n)
    (hd : s.depth ≤ n) (h : s.cycle c = .next t) : t.depth ≤ n := by
  rcases State.cycle_cases h with ⟨-, rfl⟩ | ⟨-, ⟨m, -, -, rfl⟩ | ⟨-, -, rfl⟩ | ⟨-, -, rfl⟩ | ⟨-, -, hr⟩ | ⟨-, rfl⟩⟩
  · exact Nat.zero_le _
  · exact Nat.zero_le _
  · exact hd
  · exact hd
  · rcases State.runInstruction_cases hr with ⟨-, rfl⟩ | ⟨i, hf, hx⟩ | ⟨e, -, rfl⟩
    · exact hd
    · exact (exec_effect hx).depth_le hf ha hn hd
    · cases e <;> exact hd
  · exact hd

/-! The invariant across what a step does besides running an instruction. -/

theorem State.Inv.tick (h : s.Inv) : s.tick.Inv := { h with idle := fun hi => congrArg State.tick (h.idle hi) }

theorem State.Inv.rst (h : s.Inv) : s.rst.Inv where
  memCanonical := h.memCanonical
  memBelow := h.memBelow
  paramsWf := h.paramsWf
  programWf := h.programWf
  pcBound := Nat.zero_le _
  depthByPc := Nat.le_refl _
  depth := State.depthOk_iff.2 fun _ _ => Nat.zero_le _
  faultRecord := rfl
  hidden := rfl
  retries := State.retriesExceeded_zero
  awaiting := rfl
  idle _ := rfl

theorem State.Inv.started (h : s.Inv) (m : Mode) : (s.started m).Inv :=
  { h.rst with pcBound := Nat.zero_le _, faultRecord := rfl, awaiting := rfl, idle := nofun }

theorem State.Inv.opcodesWf (h : s.Inv) : s.params.opcodes.wf = true := (Bool.and_eq_true_iff.1 h.paramsWf).2

/-- A running core has no fault record. -/
theorem State.Inv.no_fault (h : s.Inv) (hs : s.runState = .running) : s.cause = none ∧ s.faultInfo = 0 ∧ s.faultPc = 0 :=
  (State.faultRecordOk_iff (by simp [hs])).1 h.faultRecord

/-- A run that ends without a fault or an open transaction. -/
theorem State.Inv.over {r : RunState} (h : s.Inv) (hs : s.runState = .running) (ha : s.awaiting = none) (hr : r ≠ .faulted)
    (hi : r ≠ .idle) : ({ s with runState := r } : State).Inv :=
  { h with
    faultRecord := (State.faultRecordOk_iff hr).2 (h.no_fault hs)
    awaiting := State.awaitingOk_iff.2 (.inl ha)
    idle := fun h => absurd h hi }

/-- Fault entry (60_exceptions.md R160). -/
theorem State.Inv.raise {e : Exception} {n : Byte} (h : s.Inv) (hn : e.allowsInfo n = true) : (s.raise e n).Inv :=
  { h with
    faultRecord := by simp [State.faultRecordOk, hn]
    hidden := rfl
    retries := State.retriesExceeded_zero
    awaiting := rfl
    idle := nofun }

/-! The invariant across an instruction. -/

/-- What the port transaction of a step changes is no matter for the invariant of a core that is not IDLE. -/
theorem State.Inv.withPorts (h : s.Inv) (hs : s.runState ≠ .idle) (tr : List Transaction) (ia : List (Option InAnswer))
    (oa : List (Option OutAnswer)) : ({ s with trace := tr, inAnswers := ia, outAnswers := oa } : State).Inv :=
  { h with idle := fun hi => absurd hi hs }

/-- With an instruction fetched, the INPUT state is that of INPUT in progress or of none (10_state.md R39). -/
theorem State.Inv.input_state {i : Instr} (h : s.Inv) (hf : s.fetch = .instr i) :
    (s.waitInput = false ∧ s.rejected = 0 ∧ (s.awaiting = none ∨ i = .output)) ∨
      (s.waitInput = true ∧ Awaiting.ofInput s.awaiting = true ∧ i = .input ∧ s.full = false) := by
  obtain ⟨hw, hr⟩ := State.hiddenOk_iff.1 h.hidden
  rcases State.awaiting_of_fetch h.awaiting hf with h0 | ⟨h0, hi⟩ | ⟨ho, hi, hfull⟩
  · have hnot : Awaiting.ofInput s.awaiting = false := by rw [h0]; rfl
    exact .inl ⟨hw.trans hnot, hr hnot, .inl h0⟩
  · have hnot : Awaiting.ofInput s.awaiting = false := by rw [h0]; rfl
    exact .inl ⟨hw.trans hnot, hr hnot, .inr hi⟩
  · exact .inr ⟨hw.trans ho, ho, hi, hfull⟩

/-- What an instruction that goes on waiting leaves is fit for the transaction it has open. -/
theorem State.Inv.waitsWith_fits {i : Instr} {w : Bool} {c : Nat} {a : Awaiting} (h : s.Inv) (hf : s.fetch = .instr i)
    (hw : WaitsWith s i w c a) :
    w = Awaiting.ofInput (some a) ∧ s.retriesExceeded c = false ∧
      ((a = .value ∧ c = 0 ∧ i = .output ∧ s.stack ≠ []) ∨
        (Awaiting.ofInput (some a) = true ∧ i = .input ∧ s.full = false)) := by
  cases hw with
  | output hst =>
    rcases h.input_state hf with ⟨hw, hr, -⟩ | ⟨-, -, hi, -⟩
    · exact ⟨hw, h.retries, .inl ⟨rfl, hr, rfl, hst⟩⟩
    · cases hi
  | begun hfull _ ha => exact ⟨ha.symm, State.retriesExceeded_zero, .inr ⟨ha, rfl, hfull⟩⟩
  | goesOn ho _ hc _ ha =>
    rcases h.input_state hf with ⟨hw, -, -⟩ | ⟨hw, -, -, hfull⟩
    · cases hw.symm.trans ((State.hiddenOk_iff.1 h.hidden).1.trans ho)
    · refine ⟨hw.trans ha.symm, ?_, .inr ⟨ha, rfl, hfull⟩⟩
      rcases hc with hc | rfl
      · exact hc
      · exact h.retries

/-- An instruction that goes on waiting. -/
theorem State.Inv.waits {i : Instr} {w : Bool} {c : Nat} {a : Awaiting} (h : s.Inv) (hs : s.runState = .running)
    (hf : s.fetch = .instr i) (hw : WaitsWith s i w c a) :
    ({ s with waitInput := w, rejected := c, awaiting := some a } : State).Inv := by
  obtain ⟨hwait, hret, hown⟩ := h.waitsWith_fits hf hw
  refine { h with hidden := State.hiddenOk_iff.2 ⟨hwait, ?_⟩, retries := hret, awaiting := State.awaitingOk_iff.2 (.inr ?_),
                  idle := fun hi => absurd (hs.symm.trans hi) nofun }
  · rcases hown with ⟨-, hc, -, -⟩ | ⟨ha, -, -⟩
    · exact fun _ => hc
    · exact fun hn => by cases ha.symm.trans hn
  · rcases hown with ⟨rfl, -, rfl, hst⟩ | ⟨ha, rfl, hfull⟩
    · exact .inl ⟨rfl, hs, hf, hst⟩
    · exact .inr ⟨ha, hs, hf, hfull⟩

/-- An instruction that completes leaves no transaction open and no INPUT state. -/
theorem State.Inv.closesWith_eq {i : Instr} {w : Bool} {c : Nat} {a : Option Awaiting} (h : s.Inv) (hf : s.fetch = .instr i)
    (hw : ClosesWith s i w c a) : w = false ∧ c = 0 ∧ a = none := by
  cases hw with
  | input => exact ⟨rfl, rfl, rfl⟩
  | output =>
    rcases h.input_state hf with ⟨hw, hr, -⟩ | ⟨-, -, hi, -⟩
    · exact ⟨hw, hr, rfl⟩
    · cases hi
  | other hi ho =>
    rcases h.input_state hf with ⟨hw, hr, ha | hout⟩ | ⟨-, -, hin, -⟩
    · exact ⟨hw, hr, ha⟩
    · exact absurd hout ho
    · exact absurd hin hi

/-- An instruction that completes. -/
theorem State.Inv.completes {i : Instr} {stack : List Bits32} {r : RunState} (h : s.Inv) (hs : s.runState = .running)
    (hf : s.fetch = .instr i) (hst : StackStep i s stack) (hr : r = .halted ∨ r = .running) (x : Regs) :
    ({ s with
      x := x, stack := stack, pc := s.pc + s.len i, waitInput := false, rejected := 0, awaiting := none
      runState := r } : State).Inv := by
  have hpc := State.pc_add_len_toNat h.programWf hf
  refine { h with pcBound := ?_, depthByPc := ?_, depth := State.depthOk_iff.2 ?_, faultRecord := ?_, hidden := rfl,
                  retries := State.retriesExceeded_zero, awaiting := rfl, idle := ?_ }
  · exact hpc.trans_le (State.pc_add_len_le hf)
  · have hl := hst.length
    have one := i.pushes_le_one
    have hd := h.depthByPc
    have hpos := s.len_pos i
    simp only [State.depth] at hd hl ⊢
    omega
  · exact fun n hn => hst.length_le hf h.awaiting hn (State.depthOk_iff.1 h.depth n hn)
  · exact (State.faultRecordOk_iff (by rcases hr with rfl | rfl <;> simp)).2 (h.no_fault hs)
  · rintro rfl
    rcases hr with hr | hr <;> cases hr

/-- The FAULT_INFO an instruction raises with is one its cause allows (10_state.md R37). -/
theorem exec_fault_info {i : Instr} {e : Exception} (h : exec i s = .next t) (hc : s.cause = none) (ht : t.cause = some e) :
    e.allowsInfo t.faultInfo = true := by
  cases exec_ends h with
  | raised q hq e' n he =>
    cases ht
    exact (Bool.and_eq_true_iff.1 he).2
  | waits q hq | completes q hq =>
    rw [hq.eq] at ht
    cases hc.symm.trans ht

theorem State.Inv.exec {i : Instr} (h : s.Inv) (hs : s.runState = .running) (hf : s.fetch = .instr i)
    (hx : exec i s = .next t) : t.Inv := by
  have hinfo := fun e => exec_fault_info (e := e) hx (h.no_fault hs).1
  have hne : s.runState ≠ .idle := by simp [hs]
  cases exec_effect hx with
  | raised tr ia oa e n => exact (h.withPorts hne tr ia oa).raise (hinfo e rfl)
  | waits tr ia oa hw => exact (h.waits hs hf hw).withPorts hne tr ia oa
  | completes tr ia oa x hst hw =>
    obtain ⟨rfl, rfl, rfl⟩ := h.closesWith_eq hf hw
    have hr : (if i = .halt then .halted else s.runState) = RunState.halted ∨
        (if i = .halt then .halted else s.runState) = RunState.running := by split <;> simp [hs]
    exact (h.completes hs hf hst hr x).withPorts (by rcases hr with hr | hr <;> simp [hr]) tr ia oa

/-- Every step keeps the invariant. -/
theorem State.Inv.cycle {c : Signals} (h : s.Inv) (hc : s.cycle c = .next t) : t.Inv := by
  rcases State.cycle_cases hc with
    ⟨-, rfl⟩ | ⟨-, ⟨m, -, -, rfl⟩ | ⟨-, -, rfl⟩ | ⟨hs, hcancel, rfl⟩ | ⟨hs, -, hr⟩ | ⟨-, rfl⟩⟩
  · exact h.rst
  · exact h.started m
  · exact h
  · have ha : s.awaiting = none := by
      simpa using (Bool.and_eq_true_iff.1 hcancel).2
    exact h.over hs ha nofun nofun
  · rcases State.runInstruction_cases hr with ⟨hf, rfl⟩ | ⟨i, hf, hx⟩ | ⟨e, hf, rfl⟩
    · have ha : s.awaiting = none := by simpa [hf] using State.awaitingOk_iff.1 h.awaiting
      exact h.over hs ha nofun nofun
    · exact h.exec hs hf hx
    · obtain ⟨x, n, hn, hq⟩ := State.raiseDecode_eq h.opcodesWf hf
      rw [hq]
      exact h.raise hn
  · exact h

/-- From the invariant every step answers a next state (log 11). -/
theorem State.Inv.cycle_next (h : s.Inv) (c : Signals) : ∃ t, s.cycle c = .next t := by
  unfold State.cycle
  split
  · exact ⟨_, rfl⟩
  · split
    · split <;> exact ⟨_, rfl⟩
    · split
      · exact ⟨_, rfl⟩
      · unfold State.runInstruction
        split
        · exact ⟨_, rfl⟩
        · exact exec_next _ s
        · exact ⟨_, rfl⟩
        · next hf => exact absurd hf (State.fetch_ne_outside h.pcBound)
    all_goals exact ⟨_, rfl⟩

/-- Settles O56: the invariant's clauses across each way a step ends; an instruction by `exec_effect`. -/
theorem stepKeepsTheInvariant : Obligations.StepKeepsTheInvariant := by
  intro s h
  obtain ⟨t, ht⟩ := h.tick.cycle_next s.signals
  exact ⟨t, ht, h.tick.cycle ht⟩

end Sys2Proof.Machine
end


section
/-! The statements about the state: the pc, the depth, the stack effect, the registers, reset and the observe port. -/

namespace Sys2Proof.Machine

variable {s t : State}

/-! The pc. -/

/-- An instruction moves the pc by its length where it completes, and not at all otherwise (10_state.md R32). -/
theorem ExecEffect.pc_cases {i : Instr} (h : ExecEffect i s t) :
    t.pc = s.pc ∨ (t.pc = s.pc + s.len i ∧ t.runState = if i = .halt then .halted else s.runState) := by
  cases h with
  | raised | waits => exact .inl rfl
  | completes => exact .inr ⟨rfl, rfl⟩

/-- How a step of a running core moves the pc (10_state.md R32). -/
theorem State.cycle_pc_cases {c : Signals} (hs : s.runState = .running) (hr : c.rst = false) (h : s.cycle c = .next t) :
    t.pc = s.pc ∨
      ∃ i, s.fetch = .instr i ∧ t.pc = s.pc + s.len i ∧ t.runState = if i = .halt then .halted else .running := by
  rcases State.cycle_cases h with ⟨hc, -⟩ | ⟨-, ⟨m, hi, -, -⟩ | ⟨-, -, rfl⟩ | ⟨-, -, rfl⟩ | ⟨-, -, hx⟩ | ⟨-, rfl⟩⟩
  · cases hc.symm.trans hr
  · cases hi.symm.trans hs
  · exact .inl rfl
  · exact .inl rfl
  · rcases State.runInstruction_cases hx with ⟨-, rfl⟩ | ⟨i, hf, hx⟩ | ⟨e, -, rfl⟩
    · exact .inl rfl
    · rcases (exec_effect hx).pc_cases with hpc | ⟨hpc, hrun⟩
      · exact .inl hpc
      · exact .inr ⟨i, hf, hpc, hs ▸ hrun⟩
    · cases e <;> exact .inl rfl
  · exact .inl rfl

/-- Settles O12: `cycle_pc_cases`, and the instruction fetched ends within the program. -/
theorem pcOnlyAdvancesByLen : Obligations.PcOnlyAdvancesByLen := by
  intro s t hinv hs hr h
  rcases State.cycle_pc_cases (s := s.tick) hs hr h with hpc | ⟨i, hf, hpc, hrun⟩
  · exact ⟨.inl hpc, fun _ => hpc⟩
  · have hnat := State.pc_add_len_toNat hinv.programWf hf
    by_cases hi : i = .halt
    · rw [if_pos hi] at hrun
      exact ⟨.inr ⟨i, hf, hpc, hpc ▸ hnat, .inr ⟨hi, hrun⟩⟩, by simp [hrun]⟩
    · rw [if_neg hi] at hrun
      exact ⟨.inr ⟨i, hf, hpc, hpc ▸ hnat, .inl hrun⟩, by simp [hrun]⟩

/-! The stack. -/

/-- Settles O39: `cycle_depth_le`, after the control inputs are taken. -/
theorem depthStaysBounded : Obligations.DepthStaysBounded := by
  intro s t n ha hn hd h
  exact State.cycle_depth_le (s := s.tick) ha hn hd h

/-- Settles O40: only an instruction that completes moves the pc, and `StackStep` is what it does. -/
theorem stackEffectByInstruction : Obligations.StackEffectByInstruction := by
  intro i s t h hpc
  cases exec_effect h with
  | raised | waits => exact absurd rfl hpc
  | completes _ _ _ _ hs => exact ⟨hs.enough, hs.kept, hs.length⟩

/-! The registers. -/

/-- The state with other register contents. -/
def State.withRegs (x : Regs) (s : State) : State := { s with x := x }

/-- An operation whose outcome, but for the registers, is the same whatever the registers hold (10_state.md R22). -/
def RegsBlind (f : State → Result) : Prop := ∀ x s, f (s.withRegs x) = mapNext (State.withRegs x) (f s)

theorem binop_regsBlind (i : Instr) (f : Bits32 → Bits32 → Alu) : RegsBlind (binop i f) := by
  intro x s
  simp only [binop, State.withRegs]
  split
  · split <;> rfl
  · rfl

theorem pushOperand_regsBlind (i : Instr) (v : Bits32) : RegsBlind (pushOperand i v) := by
  intro x s
  have hf : (s.withRegs x).full = s.full := rfl
  unfold pushOperand
  rw [hf]
  split <;> rfl

theorem outWrite_regsBlind {text : Text} {k : OutAnswer → State → Result} (hk : ∀ a, RegsBlind (k a)) :
    RegsBlind (outWrite text k) := by
  intro x s
  simp only [outWrite, State.withRegs]
  split
  · rfl
  · rfl
  · next a later _ => exact hk a x { s with outAnswers := later, trace := s.trace ++ [.out text a] }

theorem inRead_regsBlind {k : InAnswer → State → Result} (hk : ∀ a, RegsBlind (k a)) : RegsBlind (inRead k) := by
  intro x s
  simp only [inRead, State.withRegs]
  split
  · rfl
  · rfl
  · next a later _ => exact hk a x { s with inAnswers := later, trace := s.trace ++ [.inp a] }

theorem inputWritten_regsBlind (a : OutAnswer) : RegsBlind (inputWritten a) := by
  intro x s
  cases a <;> rfl

theorem inputRejected_regsBlind : RegsBlind inputRejected := by
  intro x s
  have hr : (s.withRegs x).retriesExceeded ((s.withRegs x).rejected + 1) = s.retriesExceeded (s.rejected + 1) := rfl
  unfold inputRejected
  rw [hr]
  split <;> rfl

theorem inputAnswered_regsBlind (a : InAnswer) : RegsBlind (inputAnswered a) := by
  intro x s
  unfold inputAnswered
  split
  · rfl
  · rfl
  · split
    · rfl
    · exact inputRejected_regsBlind x s

theorem inputBegin_regsBlind : RegsBlind inputBegin := by
  intro x s
  have hf : (s.withRegs x).full = s.full := rfl
  unfold inputBegin
  rw [hf]
  split
  · rfl
  · exact outWrite_regsBlind inputWritten_regsBlind x
      { s with waitInput := true, rejected := 0, awaiting := some .prompt }

theorem execInput_regsBlind : RegsBlind execInput := by
  intro x s
  have ha : (s.withRegs x).awaiting = s.awaiting := rfl
  unfold execInput
  rw [ha]
  split
  · exact outWrite_regsBlind inputWritten_regsBlind x s
  · exact inRead_regsBlind inputAnswered_regsBlind x s
  · exact outWrite_regsBlind inputWritten_regsBlind x s
  all_goals exact inputBegin_regsBlind x s

theorem outputAnswered_regsBlind (rest : List Bits32) (a : OutAnswer) : RegsBlind (outputAnswered rest a) := by
  intro x s
  cases a <;> rfl

theorem execOutput_regsBlind : RegsBlind execOutput := by
  intro x s
  have hs : (s.withRegs x).stack = s.stack := rfl
  unfold execOutput
  rw [hs]
  split
  · rfl
  · exact outWrite_regsBlind (outputAnswered_regsBlind _) x { s with awaiting := some .value }

/-- No instruction but PUSH reg and POP reg sees the registers (10_state.md R22). -/
theorem exec_regsBlind {i : Instr} (hpush : ∀ r, i ≠ .pushReg r) (hpop : ∀ r, i ≠ .popReg r) : RegsBlind (exec i) := by
  cases i with
  | add | sub | mul | div | mod => exact fun x s => binop_regsBlind _ _ x s
  | input => exact execInput_regsBlind
  | output => exact execOutput_regsBlind
  | halt => exact fun _ _ => rfl
  | pushImm v => exact pushOperand_regsBlind _ v
  | pushReg r => exact absurd rfl (hpush r)
  | popReg r => exact absurd rfl (hpop r)

/-- No instruction but POP reg changes a register, and POP reg its own only (10_state.md R22). -/
theorem exec_regs {i : Instr} {r : Reg} (hi : i ≠ .popReg r) (h : exec i s = .next t) : t.x.get r = s.x.get r := by
  cases exec_ends h with
  | raised q hq => rw [State.raise_x, hq.eq]
  | waits q hq => rw [hq.eq]
  | completes _ _ _ _ _ _ _ hx => exact hx r hi

theorem execPushReg_x {r : Reg} (h : exec (.pushReg r) s = .next t) : t.x = s.x := by
  rcases pushOperand_cases h with ⟨-, rfl⟩ | ⟨-, rfl⟩ <;> rfl

/-- POP reg on a stack that holds an entry (44_stack_register.md R144). -/
theorem execPopReg_of_cons {r : Reg} {v : Bits32} {rest : List Bits32} (hs : s.stack = v :: rest)
    (h : exec (.popReg r) s = .next t) : t.x.get r = v ∧ t.stack = rest ∧ t.params = s.params := by
  rcases execPopReg_cases h with ⟨h0, -⟩ | ⟨v', rest', hs', rfl⟩
  · cases hs.symm.trans h0
  · cases hs.symm.trans hs'
    exact ⟨Regs.get_set_same _ _ _, rfl, rfl⟩

/-- PUSH reg on a stack that is not full (44_stack_register.md R143). -/
theorem execPushReg_stack {r : Reg} (hf : s.full = false) (h : exec (.pushReg r) s = .next t) :
    t.stack = s.x.get r :: s.stack := by
  rcases pushOperand_cases h with ⟨hfull, -⟩ | ⟨-, rfl⟩
  · cases hfull.symm.trans hf
  · rfl

/-- Settles O37: writes by `exec_regs`, reads by `exec_regsBlind`, and POP reg followed by PUSH reg. -/
theorem onlyPushRegAndPopRegReachRegisters : Obligations.OnlyPushRegAndPopRegReachRegisters := by
  refine ⟨fun i s t r hi h => exec_regs hi h, fun i s x hpush hpop => exec_regsBlind hpush hpop x s,
    fun r s t h => execPushReg_x h, fun r s t v rest hs h => ?_⟩
  obtain ⟨hx, hst, hp⟩ := execPopReg_of_cons hs h
  obtain ⟨u, hu⟩ := exec_next (.pushReg r) t
  refine ⟨hx, u, hu, fun hd => ?_⟩
  have hfull : t.full = false := State.full_eq_false.2 fun n hn => by
    have hle := hd n (hp ▸ hn)
    simp only [State.depth, hs, hst, List.length_cons] at hle ⊢
    omega
  rw [execPushReg_stack hfull hu, hx, hst]

/-! Reset. -/

theorem State.cycle_rst {c : Signals} (h : c.rst = true) : s.cycle c = .next s.rst := by
  simp [State.cycle, h]

/-- Settles O15: the next state is the reset of this one. -/
theorem resetFromAnyState : Obligations.ResetFromAnyState := by
  intro s h
  exact ⟨s.tick.rst, State.cycle_rst h, by simp [State.retryCount]⟩

/-- Settles O16. -/
theorem resetValues : Obligations.ResetValues := by
  refine ⟨fun r => by cases r <;> rfl, rfl, rfl, rfl, rfl, rfl, rfl, rfl, rfl, rfl, rfl, fun n => ?_⟩
  unfold State.observe
  split <;> rfl

/-- Settles O55. -/
theorem invariantAtReset : Obligations.InvariantAtReset where
  memCanonical := rfl
  memBelow := nofun
  paramsWf := rfl
  programWf := rfl
  pcBound := Nat.zero_le _
  depthByPc := Nat.le_refl _
  depth := rfl
  faultRecord := rfl
  hidden := rfl
  retries := rfl
  awaiting := rfl
  idle _ := rfl

/-! The fields of STATUS (10_state.md R40). -/

theorem State.status_runState (s : State) : s.status.extractLsb' 0 3 = s.runState.code := by
  rw [State.status, BitVec.extractLsb'_append_eq_of_add_le (by omega), BitVec.extractLsb'_eq_self]

theorem State.status_mode (s : State) : s.status.extractLsb' 3 1 = s.mode.code := by
  rw [State.status, BitVec.extractLsb'_append_eq_of_le (by omega), BitVec.extractLsb'_append_eq_of_add_le (by omega),
    BitVec.extractLsb'_eq_self]

theorem State.status_cause (s : State) : s.status.extractLsb' 4 4 = causeCode s.cause := by
  rw [State.status, BitVec.extractLsb'_append_eq_of_le (by omega), BitVec.extractLsb'_append_eq_of_le (by omega),
    BitVec.extractLsb'_append_eq_of_add_le (by omega), BitVec.extractLsb'_eq_self]

theorem State.status_faultInfo (s : State) : s.status.extractLsb' 8 8 = s.faultInfo := by
  rw [State.status, BitVec.extractLsb'_append_eq_of_le (by omega), BitVec.extractLsb'_append_eq_of_le (by omega),
    BitVec.extractLsb'_append_eq_of_le (by omega), BitVec.extractLsb'_append_eq_of_add_le (by omega),
    BitVec.extractLsb'_eq_self]

/-- The bits of STATUS above FAULT_INFO. -/
theorem State.status_getLsbD_of_le (s : State) {j : Nat} (hj : 16 ≤ j) :
    s.status.getLsbD j = (0#15 ++ BitVec.ofBool s.waitInput).getLsbD (j - 16) := by
  rw [State.status, BitVec.getLsbD_append, if_neg (by omega), BitVec.getLsbD_append, if_neg (by omega),
    BitVec.getLsbD_append, if_neg (by omega), BitVec.getLsbD_append, if_neg (by omega),
    show j - 3 - 1 - 4 - 8 = j - 16 by omega]

theorem State.status_waitInput (s : State) : s.status.getLsbD 16 = s.waitInput := by
  rw [s.status_getLsbD_of_le (Nat.le_refl 16)]
  cases s.waitInput <;> rfl

theorem State.status_reserved (s : State) {j : Nat} (hj : 17 ≤ j) : s.status.getLsbD j = false := by
  rw [s.status_getLsbD_of_le (by omega), BitVec.getLsbD_append, if_neg (by omega), BitVec.getLsbD_zero]

/-! The other registers of the observe port, and `stack_peek`. -/

theorem State.observe_reserved {n : Byte} (h : 9 ≤ n.toNat) : s.observe n = 0 := by
  unfold State.observe
  split
  case h_10 => rfl
  all_goals omega

theorem State.stackPeek_of_lt {k : Bits32} (h : k.toNat < s.depth) : s.stackPeek k = (s.stack[k.toNat], true) := by
  simp only [State.stackPeek, List.getElem?_eq_getElem h]

theorem State.stackPeek_of_le {k : Bits32} (h : s.depth ≤ k.toNat) : s.stackPeek k = (0, false) := by
  simp only [State.stackPeek, List.getElem?_eq_none h]

/-- Settles O52, field by field. -/
theorem observePort : Obligations.ObservePort := by
  intro s
  refine ⟨s.status_runState, s.status_mode, s.status_cause, s.status_faultInfo, s.status_waitInput,
    fun _ => s.status_reserved, rfl, rfl, rfl, rfl, rfl, rfl, rfl, rfl, s.retryCount_toNat, fun _ => State.observe_reserved,
    fun _ => State.stackPeek_of_lt, fun _ => State.stackPeek_of_le, ?_⟩
  simp [RunState.code, Mode.code, causeCode, Exception.code]

end Sys2Proof.Machine
end

section
/-! The statements about memory: program memory as the core reads it, what no step writes, and a table word placed for the next
fetch. -/

namespace Sys2Proof.Machine

variable {s t : State}

/-! What no step writes. -/

/-- No instruction writes the program, the parameters, MODE or the control inputs (20_memory.md R51). -/
theorem ExecEffect.sameEnvironment {i : Instr} (h : ExecEffect i s t) : SameEnvironment s t := by
  cases h <;> exact ⟨fun _ => rfl, rfl, rfl, rfl, rfl, rfl, rfl⟩

theorem State.raiseDecode_sameEnvironment (e : DecodeError) (s : State) : SameEnvironment s (s.raiseDecode e) := by
  cases e <;> exact ⟨fun _ => rfl, rfl, rfl, rfl, rfl, rfl, rfl⟩

/-- Nor does a running core where its fetch ends the run or raises (20_memory.md R51). -/
theorem State.runInstruction_sameEnvironment (h : s.runInstruction = .next t) : SameEnvironment s t := by
  rcases State.runInstruction_cases h with ⟨-, rfl⟩ | ⟨i, -, hx⟩ | ⟨e, -, rfl⟩
  · exact ⟨fun _ => rfl, rfl, rfl, rfl, rfl, rfl, rfl⟩
  · exact (exec_effect hx).sameEnvironment
  · exact s.raiseDecode_sameEnvironment e

/-- No cycle writes the program or the parameters, `rst` and `start` among them (20_memory.md R51). -/
theorem State.cycle_program {c : Signals} (h : s.cycle c = .next t) :
    t.mem = s.mem ∧ t.progLen = s.progLen ∧ t.program = s.program ∧ t.params = s.params := by
  rcases State.cycle_cases h with
    ⟨-, rfl⟩ | ⟨-, ⟨m, -, -, rfl⟩ | ⟨-, -, rfl⟩ | ⟨-, -, rfl⟩ | ⟨-, -, hr⟩ | ⟨-, rfl⟩⟩
  case inr.inr.inr.inr.inl =>
    have he := State.runInstruction_sameEnvironment hr
    exact ⟨he.mem, he.progLen, he.program, he.params⟩
  all_goals exact ⟨rfl, rfl, rfl, rfl⟩

/-- Settles O13: `cycle_program`, after the control inputs are taken. -/
theorem programMemoryIsReadOnly : Obligations.ProgramMemoryIsReadOnly := by
  intro s t h
  obtain ⟨hmem, hlen, hprog, hparams⟩ := State.cycle_program (s := s.tick) h
  exact ⟨fun a => congrArg (Memory.read · a) hmem, hmem, hlen, hprog, hparams⟩

/-! The fetch window. -/

theorem State.bytesAt_drop (s : State) (a n k : Nat) : (s.bytesAt a n).drop k = s.bytesAt (a + k) (n - k) := by
  apply List.ext_getElem <;> simp [State.bytesAt, Nat.add_assoc]

theorem State.bytesAt_take (s : State) (a n k : Nat) : (s.bytesAt a n).take k = s.bytesAt a (min k n) := by
  rw [State.bytesAt, ← List.map_take, List.take_range, State.bytesAt]

/-- Settles O7: dropping to the pc and taking five bytes leaves `avail` bytes from the pc on. -/
theorem windowIsTheProgramBytes : Obligations.WindowIsTheProgramBytes := by
  intro s
  refine ⟨?_, s.window_length, rfl⟩
  rw [State.programBytes, State.bytesAt_drop, State.bytesAt_take, Nat.zero_add, State.window, State.avail]

/-! A word placed for the next fetch (log 14). -/

theorem bytesOfNat_length (n w : Nat) : (bytesOfNat n w).length = n := by
  induction n with
  | zero => rfl
  | succ n ih => rw [bytesOfNat, List.length_cons, ih]

/-- The bytes of a table word fill a fetch window. -/
theorem bytesOfTableWord_length {nbits : Nat} (h : nbits ≤ 40) (w : Nat) : (bytesOfTableWord nbits w).length = 5 := by
  rw [bytesOfTableWord, List.length_append, bytesOfNat_length, List.length_replicate]
  omega

theorem decodeTableWord_eq_some {nbits w : Nat} {i : Instr} (h : decodeTableWord nbits w = some i) :
    ∃ n, decodeInstruction OpcodeMap.default (bytesOfTableWord nbits w) = .ok (i, n) := by
  unfold decodeTableWord at h
  split at h
  · next j n hd => cases h; exact ⟨n, hd⟩
  · cases h

/-- Bytes that decode in the window are the instruction a byte-mode fetch finds (40_execution_cycle.md R102). -/
theorem State.fetch_of_decode {i : Instr} {n : Nat} (hm : s.mode = .byte) (hlt : s.pc.toNat < s.progLen.toNat)
    (hd : decodeInstruction s.params.opcodes s.window = .ok (i, n)) : s.fetch = .instr i := by
  have hne : s.pc ≠ s.progLen := fun h => by simp [h] at hlt
  rw [State.fetch_byte hm, State.fetchByte, if_neg hne, if_neg (by omega), hd]

/-- There is room for the bytes placed below the largest PROG_LEN. -/
theorem State.placeAt_add_length_lt {bs : List Byte} (h : bs.length < 2 ^ 32) (s : State) :
    (s.placeAt bs).toNat + bs.length < 2 ^ 32 := by
  unfold State.placeAt
  split
  · assumption
  · simpa using h

theorem State.withFetchBytes_progLen {bs : List Byte} (h : bs.length < 2 ^ 32) (s : State) :
    (s.withFetchBytes bs).progLen.toNat = max s.progLen.toNat ((s.placeAt bs).toNat + bs.length) := by
  have hroom := State.placeAt_add_length_lt h s
  have hlen := s.progLen.isLt
  rw [State.withFetchBytes, BitVec.toNat_ofNat, Nat.mod_eq_of_lt (by omega)]

/-- The program reaches past the bytes placed at the pc. -/
theorem State.withFetchBytes_pc_add_length_le {bs : List Byte} (h : bs.length < 2 ^ 32) (s : State) :
    (s.withFetchBytes bs).pc.toNat + bs.length ≤ (s.withFetchBytes bs).progLen.toNat := by
  rw [State.withFetchBytes_progLen h]
  exact Nat.le_max_right _ _

/-- Five bytes placed are the fetch window. -/
theorem State.withFetchBytes_window {bs : List Byte} (hwf : s.mem.wf = true) (h5 : bs.length = 5) :
    (s.withFetchBytes bs).window = bs := by
  have hend := State.withFetchBytes_pc_add_length_le (bs := bs) (by omega) s
  have havail : (s.withFetchBytes bs).avail = 5 := by unfold State.avail; omega
  refine List.ext_getElem (by rw [State.window_length, havail, h5]) fun k _ hk => ?_
  simp only [State.window, State.bytesAt, List.getElem_map, List.getElem_range]
  exact Memory.read_place bs s.mem _ k hwf hk

/-- The core with bytes placed makes a step of its own. -/
theorem State.withFetchBytes_executes (bs : List Byte) (s : State) : (s.withFetchBytes bs).executes := by
  obtain ⟨hrst, hcancel⟩ :
      (s.withFetchBytes bs).signals.rst = false ∧ (s.withFetchBytes bs).signals.cancel = false := by
    simp only [State.signals, State.withFetchBytes]
    cases s.control <;> exact ⟨rfl, rfl⟩
  exact ⟨rfl, hrst, .inl hcancel⟩

/-- An instruction whose bytes are placed is the one the next step runs. -/
theorem step_withFetchBytes {bs : List Byte} {i : Instr} {n : Nat} (hwf : s.mem.wf = true) (h5 : bs.length = 5)
    (hd : decodeInstruction s.params.opcodes bs = .ok (i, n)) :
    step (s.withFetchBytes bs) = exec i (s.withFetchBytes bs).tick := by
  have hend := State.withFetchBytes_pc_add_length_le (bs := bs) (by omega) s
  have hf : (s.withFetchBytes bs).fetch = .instr i :=
    State.fetch_of_decode rfl (by omega) (by rw [State.withFetchBytes_window hwf h5]; exact hd)
  exact (step_of_executes (s.withFetchBytes_executes bs)).trans (State.runInstruction_instr hf)

/-- Settles O60: the state that runs the instruction is the one with the word placed, its control inputs taken. -/
theorem placedWordIsRunNext : Obligations.PlacedWordIsRunNext := by
  intro s nbits w i hwf hmap hbits hw
  obtain ⟨n, hd⟩ := decodeTableWord_eq_some hw
  rw [← hmap] at hd
  exact ⟨(s.withFetchWord nbits w).tick, step_withFetchBytes hwf (bytesOfTableWord_length hbits w) hd,
    rfl, rfl, rfl, rfl, rfl, rfl, rfl⟩

end Sys2Proof.Machine
end

section
/-! The statements about the encoding: the decoder after the encoder, its errors, and whole programs. -/

namespace Sys2Proof

variable {m : OpcodeMap} {k : Kind} {b : Byte} {bytes rest : List Byte}

/-! A unit decoded from its encoding (30_encoding.md R80). -/

theorem encodeValue_length (v : Bits32) : (encodeValue v).length = 4 := rfl

theorem encodeRegister_length (r : Reg) : (encodeRegister r).length = 1 := rfl

theorem encodeInstruction_length (m : OpcodeMap) (i : Instr) : (encodeInstruction m i).length = i.length := by
  cases i <;> rfl

theorem decodeValue_encodeValue_append (v : Bits32) (rest : List Byte) :
    decodeValue (encodeValue v ++ rest) = .ok (v, 4) :=
  congrArg (fun w => Except.ok (w, 4)) (joinBytes_extract v)

theorem decodeRegister_encodeRegister_append (r : Reg) (rest : List Byte) :
    decodeRegister (encodeRegister r ++ rest) = .ok (r, 1) := by
  cases r <;> rfl

theorem decodeOperands_encodeOperands_append (i : Instr) (rest : List Byte) :
    decodeOperands i.kind (encodeOperands i ++ rest) = .ok (i, i.length) := by
  cases i with
  | pushImm v => exact congrArg (fun w => Except.ok (Instr.pushImm w, 5)) (joinBytes_extract v)
  | pushReg r | popReg r => cases r <;> rfl
  | _ => rfl

/-! The decoder on a byte that names a kind, and on one that names none. -/

theorem decodeInstruction_of_kindOf (h : m.kindOf b = some k) (rest : List Byte) :
    decodeInstruction m (b :: rest) = decodeOperands k rest := by
  rw [decodeInstruction_cons, h]

theorem decodeInstruction_of_kindOf_none (h : m.kindOf b = none) (rest : List Byte) :
    decodeInstruction m (b :: rest) = .error (.wrongOpCode b) := by
  rw [decodeInstruction_cons, h]

theorem decodeInstruction_encodeInstruction_append (hm : m.wf = true) (i : Instr) (rest : List Byte) :
    decodeInstruction m (encodeInstruction m i ++ rest) = .ok (i, i.length) := by
  rw [encodeInstruction, List.cons_append, decodeInstruction_of_kindOf (OpcodeMap.kindOf_opcodeOf hm i.kind),
    decodeOperands_encodeOperands_append]

/-! The encoding of what was decoded. -/

theorem encodeRegister_of_ofByte {r : Reg} (h : Reg.ofByte b = some r) : encodeRegister r = [b] := by
  rw [Reg.ofByte_eq_some h, encodeRegister]

/-- A format-R operand that decodes is one byte, a register's (30_encoding.md R65, R71). -/
theorem decodeRegOperand_ok {mk : Reg → Instr} {i : Instr} {n : Nat} (h : decodeRegOperand mk rest = .ok (i, n)) :
    ∃ r later, i = mk r ∧ n = 2 ∧ rest = encodeRegister r ++ later := by
  cases rest with
  | nil => cases h
  | cons b later =>
    simp only [decodeRegOperand, decodeRegister] at h
    cases hb : Reg.ofByte b <;> simp only [hb] at h <;> cases h
    exact ⟨_, later, rfl, rfl, by rw [encodeRegister_of_ofByte hb]; rfl⟩

theorem decodeImmOperand_ok {i : Instr} {n : Nat} (h : decodeImmOperand rest = .ok (i, n)) :
    ∃ v later, i = .pushImm v ∧ n = 5 ∧ rest = encodeValue v ++ later := by
  match rest with
  | b0 :: b1 :: b2 :: b3 :: later =>
    cases h
    exact ⟨_, later, rfl, rfl, by rw [encodeValue_joinBytes]; rfl⟩
  | [] | [_] | [_, _] | [_, _, _] => cases h

/-- The bytes an instruction's operand was decoded from begin with the operand's encoding. -/
theorem decodeOperands_ok_prefix {i : Instr} {n : Nat} (h : decodeOperands k rest = .ok (i, n)) :
    ∃ later, rest = encodeOperands i ++ later := by
  cases k
  case pushImm =>
    obtain ⟨v, later, rfl, -, hrest⟩ := decodeImmOperand_ok h
    exact ⟨later, hrest⟩
  case pushReg | popReg =>
    obtain ⟨r, later, rfl, -, hrest⟩ := decodeRegOperand_ok h
    exact ⟨later, hrest⟩
  all_goals
    cases h
    exact ⟨rest, rfl⟩

theorem encodeInstruction_of_decodeInstruction (hm : m.wf = true) {i : Instr} {n : Nat}
    (h : decodeInstruction m bytes = .ok (i, n)) : encodeInstruction m i = bytes.take n := by
  obtain ⟨hn, b, rest, rfl, hk, hop⟩ := decodeInstruction_ok h
  obtain ⟨later, rfl⟩ := decodeOperands_ok_prefix hop
  have hbytes : b :: (encodeOperands i ++ later) = encodeInstruction m i ++ later := by
    rw [encodeInstruction, OpcodeMap.opcodeOf_of_kindOf hm hk, List.cons_append]
  rw [hbytes, List.take_left' ((encodeInstruction_length m i).trans hn.symm)]

/-! Whole programs (30_encoding.md R75): every instruction consumes a byte, so the fuel never runs out. -/

/-- The program decoder, one instruction at a time. -/
theorem decodeProgramFrom_succ (fuel : Nat) (hne : bytes ≠ []) :
    decodeProgramFrom m (fuel + 1) bytes =
      (decodeInstruction m bytes).bind fun r =>
        (decodeProgramFrom m fuel (bytes.drop r.2)).map (⟨r.1⟩ :: ·) := by
  obtain ⟨b, rest, rfl⟩ := List.exists_cons_of_ne_nil hne
  rw [decodeProgramFrom]
  rcases decodeInstruction m (b :: rest) with e | ⟨i, n⟩
  · rfl
  · show _ = (decodeProgramFrom m fuel ((b :: rest).drop n)).map (⟨i⟩ :: ·)
    dsimp only
    cases decodeProgramFrom m fuel ((b :: rest).drop n) <;> rfl

theorem decodeInstruction_ok_bounds {i : Instr} {n : Nat} (h : decodeInstruction m bytes = .ok (i, n)) :
    0 < n ∧ n ≤ bytes.length := by
  have hle := decodeInstruction_ok_length h
  obtain ⟨rfl, -⟩ := decodeInstruction_ok h
  exact ⟨by rcases i.length_eq with h | h | h <;> omega, hle⟩

/-- Fuel beyond the number of bytes makes no difference. -/
theorem decodeProgramFrom_eq_of_length_le {f g : Nat} (hf : bytes.length ≤ f) (hg : bytes.length ≤ g) :
    decodeProgramFrom m f bytes = decodeProgramFrom m g bytes := by
  induction f generalizing g bytes with
  | zero => rw [List.length_eq_zero_iff.1 (Nat.le_zero.1 hf), decodeProgramFrom, decodeProgramFrom]
  | succ f ih =>
    by_cases hne : bytes = []
    · rw [hne, decodeProgramFrom, decodeProgramFrom]
    · have hlen := List.length_pos_iff.2 hne
      obtain ⟨g, rfl⟩ := Nat.exists_eq_add_of_le' (Nat.le_trans hlen hg)
      rw [decodeProgramFrom_succ f hne, decodeProgramFrom_succ g hne]
      rcases hd : decodeInstruction m bytes with e | ⟨i, n⟩
      · rfl
      · have hn := decodeInstruction_ok_bounds hd
        show (decodeProgramFrom m f (bytes.drop n)).map _ = (decodeProgramFrom m g (bytes.drop n)).map _
        rw [ih (g := g) (by rw [List.length_drop]; omega) (by rw [List.length_drop]; omega)]

theorem decodeProgramFrom_eq_decodeProgram {fuel : Nat} (h : bytes.length ≤ fuel) :
    decodeProgramFrom m fuel bytes = decodeProgram m bytes :=
  decodeProgramFrom_eq_of_length_le h (Nat.le_refl _)

theorem decodeProgram_nil (m : OpcodeMap) : decodeProgram m [] = .ok [] := rfl

theorem decodeProgram_of_error {e : DecodeError} (h : decodeInstruction m bytes = .error e) (hne : bytes ≠ []) :
    decodeProgram m bytes = .error e := by
  rw [← decodeProgramFrom_eq_decodeProgram (Nat.le_succ _), decodeProgramFrom_succ _ hne, h]
  rfl

theorem decodeProgram_of_ok {i : Instr} {n : Nat} (h : decodeInstruction m bytes = .ok (i, n)) :
    decodeProgram m bytes = (decodeProgram m (bytes.drop n)).map (⟨i⟩ :: ·) := by
  have hpos := decodeInstruction_ok_bounds h
  have hne : bytes ≠ [] := List.length_pos_iff.1 (by omega)
  rw [← decodeProgramFrom_eq_decodeProgram (Nat.le_succ _), decodeProgramFrom_succ _ hne, h]
  show (decodeProgramFrom m _ (bytes.drop n)).map _ = _
  rw [decodeProgramFrom_eq_decodeProgram (by rw [List.length_drop]; omega)]

theorem decodeProgram_encodeInstruction_append (hm : m.wf = true) (i : Instr) (rest : List Byte) :
    decodeProgram m (encodeInstruction m i ++ rest) = (decodeProgram m rest).map (⟨i⟩ :: ·) := by
  rw [decodeProgram_of_ok (decodeInstruction_encodeInstruction_append hm i rest),
    List.drop_left' (encodeInstruction_length m i)]

theorem decodeProgram_encodeProgram (hm : m.wf = true) (p : Program) : decodeProgram m (encodeProgram m p) = .ok p := by
  induction p with
  | nil => rfl
  | cons st p ih =>
    rw [encodeProgram, List.flatMap_cons, ← encodeProgram, decodeProgram_encodeInstruction_append hm, ih]
    rfl

/-- Settles O2: each unit from the laws of its parts, a Program by induction over its Statements. -/
theorem roundTripLaws : Obligations.RoundTripLaws := by
  intro m hm
  refine ⟨decodeValue_encodeValue_append, decodeRegister_encodeRegister_append, fun i rest => ?_, fun i => ?_,
    decodeProgram_encodeProgram hm, encodeValue_length, encodeRegister_length,
    fun i => ⟨encodeInstruction_length m i, i.length_eq⟩, fun bytes i n => encodeInstruction_of_decodeInstruction hm⟩
  · rw [encodeInstruction_length]
    exact decodeInstruction_encodeInstruction_append hm i rest
  · have h := decodeProgram_encodeInstruction_append hm i []
    rwa [List.append_nil] at h

/-- Settles O5: the program decoder's equations, one for each answer of the instruction decoder. -/
theorem decodeProgramFailFast : Obligations.DecodeProgramFailFast := by
  intro m bytes
  refine ⟨decodeProgram_nil m, fun e => decodeProgram_of_error, fun i n e hi he => ?_, fun i n p hi hp => ?_⟩
  · rw [decodeProgram_of_ok hi, he]
    rfl
  · rw [decodeProgram_of_ok hi, hp]
    rfl

/-! What each decode error says of the bytes (30_encoding.md R73). -/

/-- No operand is a wrong opcode. -/
theorem decodeOperands_ne_wrongOpCode (k : Kind) (rest : List Byte) (b : Byte) :
    decodeOperands k rest ≠ .error (.wrongOpCode b) := by
  intro h
  rcases decodeOperands_error h with ⟨h, -⟩ | ⟨_, h, -⟩ <;> cases h

/-- An operand ends early exactly where its kind's length is more than there is. -/
theorem decodeOperands_endOfInput_iff : decodeOperands k rest = .error .endOfInput ↔ rest.length + 1 < k.length := by
  cases k
  case pushImm =>
    match rest with
    | _ :: _ :: _ :: _ :: _ | [] | [_] | [_, _] | [_, _, _] =>
      simp [decodeOperands, decodeImmOperand, decodeValue, Kind.length]
  case pushReg | popReg =>
    cases rest with
    | nil => simp [decodeOperands, decodeRegOperand, decodeRegister, Kind.length]
    | cons b rest => cases hb : Reg.ofByte b <;> simp [decodeOperands, decodeRegOperand, decodeRegister, hb, Kind.length]
  all_goals simp [decodeOperands, Kind.length]

theorem decodeRegOperand_wrongRegister_iff {mk : Reg → Instr} :
    decodeRegOperand mk rest = .error (.wrongRegister b) ↔ rest[0]? = some b ∧ 4 ≤ b.toNat := by
  cases rest with
  | nil => simp [decodeRegOperand, decodeRegister]
  | cons c rest =>
    rw [← Reg.ofByte_eq_none]
    cases hc : Reg.ofByte c with
    | none => simpa [decodeRegOperand, decodeRegister, hc] using fun h : c = b => h ▸ hc
    | some r => simpa [decodeRegOperand, decodeRegister, hc] using fun h : c = b => by simp [← h, hc]

theorem decodeOperands_wrongRegister_iff :
    decodeOperands k rest = .error (.wrongRegister b) ↔ k.length = 2 ∧ rest[0]? = some b ∧ 4 ≤ b.toNat := by
  cases k
  case pushReg | popReg => simp [decodeOperands, decodeRegOperand_wrongRegister_iff, Kind.length]
  case pushImm =>
    have : decodeOperands .pushImm rest ≠ .error (.wrongRegister b) := fun h => by
      cases (decodeImmOperand_error h).1
    simpa [Kind.length] using this
  all_goals simp [decodeOperands, Kind.length]

theorem decodeInstruction_endOfInput_iff :
    decodeInstruction m bytes = .error .endOfInput ↔
      bytes = [] ∨ ∃ b k, bytes[0]? = some b ∧ m.kindOf b = some k ∧ bytes.length < k.length := by
  cases bytes with
  | nil => simp [decodeInstruction, decodeOpcode]
  | cons b rest =>
    cases hk : m.kindOf b <;> simp [decodeInstruction_cons, hk, decodeOperands_endOfInput_iff]

theorem decodeInstruction_wrongOpCode_iff :
    decodeInstruction m bytes = .error (.wrongOpCode b) ↔ bytes[0]? = some b ∧ m.kindOf b = none := by
  cases bytes with
  | nil => simp [decodeInstruction, decodeOpcode]
  | cons c rest =>
    cases hk : m.kindOf c with
    | none => simpa [decodeInstruction_of_kindOf_none hk] using fun h : c = b => h ▸ hk
    | some k =>
      simpa [decodeInstruction_of_kindOf hk, decodeOperands_ne_wrongOpCode] using fun h : c = b => by simp [← h, hk]

theorem decodeInstruction_wrongRegister_iff :
    decodeInstruction m bytes = .error (.wrongRegister b) ↔
      ∃ c k, bytes[0]? = some c ∧ m.kindOf c = some k ∧ k.length = 2 ∧ bytes[1]? = some b ∧ 4 ≤ b.toNat := by
  cases bytes with
  | nil => simp [decodeInstruction, decodeOpcode]
  | cons c rest =>
    cases hk : m.kindOf c <;> simp [decodeInstruction_cons, hk, decodeOperands_wrongRegister_iff]

/-! How many bytes the decoder looks at (30_encoding.md R74). -/

/-- The operand depends on no byte beyond its kind's length. -/
theorem decodeOperands_take {j : Nat} (h : k.length ≤ j + 1) : decodeOperands k (rest.take j) = decodeOperands k rest := by
  cases k
  case pushImm =>
    obtain ⟨j, rfl⟩ := Nat.exists_eq_add_of_le' (show 4 ≤ j from Nat.le_of_succ_le_succ h)
    match rest with
    | _ :: _ :: _ :: _ :: _ | [] | [_] | [_, _] | [_, _, _] => rfl
  case pushReg | popReg =>
    obtain ⟨j, rfl⟩ := Nat.exists_eq_add_of_le' (show 1 ≤ j from Nat.le_of_succ_le_succ h)
    cases rest <;> rfl
  all_goals rfl

/-- The decoder depends on the opcode and the bytes of the length its kind has. -/
theorem decodeInstruction_take {n : Nat} (hn : 1 ≤ n) (h : ∀ k, bytes[0]?.bind m.kindOf = some k → k.length ≤ n) :
    decodeInstruction m (bytes.take n) = decodeInstruction m bytes := by
  obtain ⟨j, rfl⟩ := Nat.exists_eq_add_of_le' hn
  cases bytes with
  | nil => rfl
  | cons b rest =>
    rw [List.take_succ_cons, decodeInstruction_cons, decodeInstruction_cons]
    cases hk : m.kindOf b with
    | none => rfl
    | some k => exact decodeOperands_take (h k hk)

theorem Kind.length_le_five (k : Kind) : k.length ≤ 5 := by cases k <;> decide

/-- Settles O3: the four results, each with the bytes it depends on by `decodeInstruction_take`. -/
theorem decodeInstructionTotal : Obligations.DecodeInstructionTotal := by
  intro m hm bytes
  refine ⟨?_, decodeInstruction_take (by omega) fun k _ => k.length_le_five⟩
  rcases hd : decodeInstruction m bytes with e | ⟨i, n⟩
  · refine .inr ?_
    cases e with
    | endOfInput => exact .inl rfl
    | wrongOpCode b =>
      obtain ⟨h0, hk⟩ := decodeInstruction_wrongOpCode_iff.1 hd
      refine .inr (.inl ⟨b, rfl, (OpcodeMap.kindOf_eq_none hm b).1 hk, ?_⟩)
      rw [decodeInstruction_take (Nat.le_refl 1) (by simp [h0, hk]), hd]
    | wrongRegister b =>
      obtain ⟨c, k, h0, hk, hl, -, hb⟩ := decodeInstruction_wrongRegister_iff.1 hd
      refine .inr (.inr ⟨b, rfl, hb, ?_⟩)
      rw [decodeInstruction_take (by omega) (by simp [h0, hk, hl]), hd]
  · obtain ⟨hpos, hle⟩ := decodeInstruction_ok_bounds hd
    obtain ⟨hn, b, rest, rfl, hk, -⟩ := decodeInstruction_ok hd
    refine .inl ⟨i, n, rfl, hn ▸ i.length_eq, hle, ?_⟩
    rw [decodeInstruction_take hpos (by simp [hk, hn, Instr.length]), hd]

/-! The opcode numbers of the table (30_encoding.md R69). -/

/-- The length an opcode byte of the table stands for. -/
theorem OpcodeMap.default_kindOf_length :
    ∀ b k, OpcodeMap.default.kindOf b = some k → k.length = if b = 8 then 5 else if b = 9 ∨ b = 10 then 2 else 1 := by
  decide

theorem decodeInstruction_default_endOfInput_iff :
    decodeInstruction OpcodeMap.default bytes = .error .endOfInput ↔
      bytes = [] ∨ (bytes[0]? = some 8 ∧ bytes.length < 5) ∨
        ((bytes[0]? = some 9 ∨ bytes[0]? = some 10) ∧ bytes.length < 2) := by
  rw [decodeInstruction_endOfInput_iff]
  refine or_congr_right ⟨fun ⟨b, k, h0, hk, hl⟩ => ?_, ?_⟩
  · have hlen : 0 < bytes.length := (List.getElem?_eq_some_iff.1 h0).1
    rw [OpcodeMap.default_kindOf_length b k hk] at hl
    split at hl
    · next h8 => exact .inl ⟨h8 ▸ h0, hl⟩
    · split at hl
      · next h910 => exact .inr ⟨by simpa [h0] using h910, hl⟩
      · omega
  · rintro (⟨h0, hl⟩ | ⟨h0 | h0, hl⟩)
    · exact ⟨8, .pushImm, h0, rfl, hl⟩
    · exact ⟨9, .pushReg, h0, rfl, hl⟩
    · exact ⟨10, .popReg, h0, rfl, hl⟩

theorem decodeInstruction_default_wrongRegister_iff :
    decodeInstruction OpcodeMap.default bytes = .error (.wrongRegister b) ↔
      (bytes[0]? = some 9 ∨ bytes[0]? = some 10) ∧ bytes[1]? = some b ∧ 3 < b.toNat := by
  rw [decodeInstruction_wrongRegister_iff]
  refine ⟨fun ⟨c, k, h0, hk, hl, h1, hb⟩ => ⟨?_, h1, hb⟩, ?_⟩
  · rw [OpcodeMap.default_kindOf_length c k hk] at hl
    have h910 : c = 9 ∨ c = 10 := by
      by_contra h
      rw [if_neg h] at hl
      split at hl <;> cases hl
    simpa [h0] using h910
  · rintro ⟨h0 | h0, h1, hb⟩
    · exact ⟨9, .pushReg, h0, rfl, rfl, h1, hb⟩
    · exact ⟨10, .popReg, h0, rfl, rfl, h1, hb⟩

/-- Settles O4: what each error says of any map's opcodes, at the opcode numbers of the table. -/
theorem decodeErrorsExactly : Obligations.DecodeErrorsExactly := by
  intro bytes
  refine ⟨decodeInstruction_default_endOfInput_iff, fun b => ?_, fun b => decodeInstruction_default_wrongRegister_iff⟩
  rw [decodeInstruction_wrongOpCode_iff, OpcodeMap.kindOf_eq_none OpcodeMap.default_wf, Nat.succ_le_iff]

/-- Settles O1: fixed words, by evaluation. -/
theorem decodeWordsOfTheTable : Obligations.DecodeWordsOfTheTable :=
  ⟨rfl, rfl, rfl, rfl, rfl, rfl, rfl, rfl, rfl, rfl⟩

end Sys2Proof
end

section
/-! The statements about the assembly text: what a parse collects, and a rendered Program parsed again. -/

namespace Sys2Proof.Machine

/-! The errors of a parse (30_encoding.md R94). -/

/-- A line's error under its number, if the line fails. -/
def lineErrors (n : Nat) (line : Option (Except LineError Instr)) : List (Nat × LineError) :=
  match line with
  | some (.error e) => [(n, e)]
  | some (.ok _) | none => []

/-- The errors a parse has found, none where it succeeds. -/
def parsedErrors (r : Parsed) : List (Nat × LineError) :=
  match r with
  | .ok _ => []
  | .error es => es

theorem mem_lineErrors {n k : Nat} {line : Option (Except LineError Instr)} {e : LineError} :
    (k, e) ∈ lineErrors n line ↔ k = n ∧ line = some (.error e) := by
  rcases line with _ | e' | i <;> simp [lineErrors, eq_comm]

/-- Every line's error is kept, in front of those of the lines after it. -/
theorem parsedErrors_consLine (n : Nat) (line : Option (Except LineError Instr)) (later : Parsed) :
    parsedErrors (consLine n line later) = lineErrors n line ++ parsedErrors later := by
  rcases line with _ | e | i <;> cases later <;> rfl

theorem consLine_ne_error_nil (n : Nat) (line : Option (Except LineError Instr)) {later : Parsed} (h : later ≠ .error []) :
    consLine n line later ≠ .error [] := by
  rcases line with _ | e | i
  · exact h
  · cases later <;> nofun
  · cases later with
    | error es => exact h
    | ok p => nofun

/-- A parse that fails has an error to report. -/
theorem parseLines_ne_error_nil (n : Nat) (lines : List Text) : parseLines n lines ≠ .error [] := by
  induction lines generalizing n with
  | nil => nofun
  | cons line lines ih => exact consLine_ne_error_nil n (parseLine line) (ih (n + 1))

/-- The errors of a parse are those of the failing lines, each under its number. -/
theorem mem_parsedErrors_parseLines {n k : Nat} {lines : List Text} {e : LineError} :
    (k, e) ∈ parsedErrors (parseLines n lines) ↔
      n ≤ k ∧ ∃ line, lines[k - n]? = some line ∧ parseLine line = some (.error e) := by
  induction lines generalizing n with
  | nil => simp [parseLines, parsedErrors]
  | cons line lines ih =>
    rw [parseLines, parsedErrors_consLine, List.mem_append, mem_lineErrors, ih]
    rcases Nat.lt_trichotomy k n with hlt | rfl | hgt
    · simp [show ¬ n ≤ k by omega, show ¬ n + 1 ≤ k by omega, show k ≠ n by omega]
    · simp
    · rw [show k - n = k - (n + 1) + 1 by omega, List.getElem?_cons_succ]
      simp [show n ≤ k by omega, show n + 1 ≤ k by omega, show k ≠ n by omega]

/-- The errors of a parse stand in the order of their lines. -/
theorem parsedErrors_parseLines_pairwise (n : Nat) (lines : List Text) :
    (parsedErrors (parseLines n lines)).Pairwise (fun a b => a.1 < b.1) := by
  induction lines generalizing n with
  | nil => exact .nil
  | cons line lines ih =>
    rw [parseLines, parsedErrors_consLine, List.pairwise_append]
    refine ⟨?_, ih (n + 1), fun a ha b hb => ?_⟩
    · rcases parseLine line with _ | e | i <;> simp [lineErrors]
    · have hn := (mem_lineErrors.1 ha).1
      have hlt := (mem_parsedErrors_parseLines.1 hb).1
      omega

theorem parseLines_blank {lines : List Text} (h : ∀ line ∈ lines, parseLine line = none) (n : Nat) :
    parseLines n lines = .ok [] := by
  induction lines generalizing n with
  | nil => rfl
  | cons line lines ih =>
    rw [parseLines, h line List.mem_cons_self, ih (fun l hl => h l (List.mem_cons_of_mem _ hl))]
    rfl

/-- Settles O54: the errors of a parse, by their members and their order. -/
theorem parseCollectsEveryError : Obligations.ParseCollectsEveryError := by
  intro t
  refine ⟨fun h => parseLines_blank h 1, fun p hp line hline e he => ?_, fun es hes => ⟨?_, ?_, fun n e => ?_⟩⟩
  · obtain ⟨j, hj⟩ := List.mem_iff_getElem?.1 hline
    have hmem : (j + 1, e) ∈ parsedErrors (parse t) :=
      mem_parsedErrors_parseLines.2 ⟨Nat.le_add_left 1 j, line, hj, he⟩
    rw [hp] at hmem
    cases hmem
  · rintro rfl
    exact parseLines_ne_error_nil 1 _ hes
  · have h := parsedErrors_parseLines_pairwise 1 (splitLines t)
    rwa [← parse, hes] at h
  · have h := mem_parsedErrors_parseLines (n := 1) (k := n) (lines := splitLines t) (e := e)
    rwa [← parse, hes] at h

/-! Lines and tokens of a rendered Program (30_encoding.md R86, R87, R96). -/

theorem splitLinesFrom_append_lf {word : Text} (h : lf ∉ word) (line t : Text) :
    splitLinesFrom line (word ++ lf :: t) = dropFinalCr (line ++ word) :: splitLines t := by
  induction word generalizing line with
  | nil => simp [splitLinesFrom, splitLines]
  | cons b word ih =>
    obtain ⟨hb, hword⟩ := not_or.1 (mt List.mem_cons.2 h)
    rw [List.cons_append, splitLinesFrom, if_neg (Ne.symm hb), ih hword, List.append_assoc, List.singleton_append]

theorem dropFinalCr_of_not_mem {line : Text} (h : cr ∉ line) : dropFinalCr line = line :=
  if_neg fun hl => h (List.mem_of_getLast? hl)

theorem tokensFrom_append {word : Text} (h : ∀ b ∈ word, isSpace b = false) (token t : Text) :
    tokensFrom token (word ++ t) = tokensFrom (token ++ word) t := by
  induction word generalizing token with
  | nil => rw [List.nil_append, List.append_nil]
  | cons b word ih =>
    obtain ⟨hb, hword⟩ := List.forall_mem_cons.1 h
    rw [List.cons_append, tokensFrom, hb, if_neg nofun, ih hword, List.append_assoc, List.singleton_append]

theorem consToken_of_ne_nil {token : Text} (h : token ≠ []) (later : List Text) :
    consToken token later = token :: later := if_neg h

/-- Two words with a space between them are two tokens. -/
theorem tokens_two_words {word arg : Text} (hword : ∀ b ∈ word, isSpace b = false) (harg : ∀ b ∈ arg, isSpace b = false)
    (hne : word ≠ []) (hne' : arg ≠ []) : tokens (word ++ 0x20 :: arg) = [word, arg] := by
  have hlast : tokensFrom [] arg = [arg] := by
    rw [← List.append_nil arg, tokensFrom_append harg, List.append_nil, List.nil_append, tokensFrom,
      consToken_of_ne_nil hne']
  rw [tokens, tokensFrom_append hword, tokensFrom, if_pos (by decide), hlast, List.nil_append, consToken_of_ne_nil hne]

/-- A byte that can stand in a token: no whitespace and no LF (30_encoding.md R86, R87). -/
abbrev TokenByte (b : Byte) : Prop := isSpace b = false ∧ b ≠ lf

/-! `dec(v)` read back (00_scope.md R16, 30_encoding.md R90). -/

theorem digitValue_digitChar : ∀ d < 10, digitValue (digitChar d) = some d := by decide

theorem tokenByte_digitChar : ∀ d < 10, TokenByte (digitChar d) := by decide

theorem digitChar_ne_sign : ∀ d < 10, digitChar d ≠ minus ∧ digitChar d ≠ plus := by decide

theorem decDigits_ne_nil (fuel n : Nat) : decDigits fuel n ≠ [] := by
  cases fuel with
  | zero => nofun
  | succ fuel =>
    rw [decDigits]
    split
    · nofun
    · exact List.append_ne_nil_of_right_ne_nil _ (List.cons_ne_nil _ _)

theorem mem_decDigits {fuel n : Nat} {b : Byte} (h : n < 10 ^ (fuel + 1)) (hb : b ∈ decDigits fuel n) :
    ∃ d < 10, b = digitChar d := by
  induction fuel generalizing n with
  | zero => exact ⟨n, h, List.mem_singleton.1 hb⟩
  | succ fuel ih =>
    rw [decDigits] at hb
    split at hb
    · next hn => exact ⟨n, hn, List.mem_singleton.1 hb⟩
    · rcases List.mem_append.1 hb with hb | hb
      · exact ih (Nat.div_lt_of_lt_mul (by rw [Nat.pow_succ'] at h; exact h)) hb
      · exact ⟨n % 10, Nat.mod_lt n (by decide), List.mem_singleton.1 hb⟩

/-- One more digit at the end, as `decDigits` writes them. -/
theorem digitsValueFrom_append_digit (acc : Nat) (t : Text) {d : Nat} (hd : d < 10) :
    digitsValueFrom acc (t ++ [digitChar d]) = (digitsValueFrom acc t).map (10 * · + d) := by
  induction t generalizing acc with
  | nil => simp [digitsValueFrom, digitValue_digitChar d hd]
  | cons b t ih =>
    rw [List.cons_append, digitsValueFrom, digitsValueFrom]
    cases digitValue b with
    | none => rfl
    | some e => exact ih _

theorem digitsValueFrom_digit {d : Nat} (hd : d < 10) : digitsValueFrom 0 [digitChar d] = some d := by
  simpa [digitsValueFrom] using digitsValueFrom_append_digit 0 [] hd

theorem digitsValueFrom_decDigits {fuel n : Nat} (h : n < 10 ^ (fuel + 1)) :
    digitsValueFrom 0 (decDigits fuel n) = some n := by
  induction fuel generalizing n with
  | zero => exact digitsValueFrom_digit h
  | succ fuel ih =>
    rw [decDigits]
    split
    · next hn => exact digitsValueFrom_digit hn
    · have hdiv : n / 10 < 10 ^ (fuel + 1) := Nat.div_lt_of_lt_mul (by rw [Nat.pow_succ'] at h; exact h)
      rw [digitsValueFrom_append_digit _ _ (Nat.mod_lt n (by decide)), ih hdiv, Option.map_some, Nat.div_add_mod]

theorem digitsValue_decDigits {fuel n : Nat} (h : n < 10 ^ (fuel + 1)) : digitsValue (decDigits fuel n) = some n := by
  obtain ⟨b, t, hbt⟩ := List.exists_cons_of_ne_nil (decDigits_ne_nil fuel n)
  have hv := digitsValueFrom_decDigits h
  rw [hbt] at hv ⊢
  exact hv

theorem signedValue_minus (t : Text) : signedValue (minus :: t) = (digitsValue t).map fun (n : Nat) => -(n : Int) := by
  rw [signedValue, if_pos rfl]

/-- Digits without a sign before them. -/
theorem signedValue_decDigits {fuel n : Nat} (h : n < 10 ^ (fuel + 1)) : signedValue (decDigits fuel n) = some (n : Int) := by
  have hv := digitsValue_decDigits h
  obtain ⟨b, t, hbt⟩ := List.exists_cons_of_ne_nil (decDigits_ne_nil fuel n)
  obtain ⟨d, hd, rfl⟩ := mem_decDigits h (hbt ▸ List.mem_cons_self)
  obtain ⟨hm, hp⟩ := digitChar_ne_sign d hd
  rw [hbt] at hv ⊢
  rw [signedValue, if_neg hm, if_neg hp, hv, Option.map_some]

/-- A 32-bit value has at most ten digits. -/
theorem natAbs_sint_lt (v : Bits32) : (sint v).natAbs < 10 ^ (9 + 1) := by
  have hlo := BitVec.le_toInt v
  have hhi := BitVec.toInt_lt (x := v)
  simp only [sint]
  omega

theorem signedValue_dec (v : Bits32) : signedValue (dec v) = some (sint v) := by
  have hlt := natAbs_sint_lt v
  unfold dec
  split
  · next hneg =>
    rw [signedValue_minus, digitsValue_decDigits hlt, Option.map_some]
    congr 1
    omega
  · next hpos =>
    rw [signedValue_decDigits hlt]
    congr 1
    omega

theorem parseDecimal_dec (v : Bits32) : parseDecimal (dec v) = some v := by
  have hlo := BitVec.le_toInt v
  have hhi := BitVec.toInt_lt (x := v)
  rw [parseDecimal, signedValue_dec]
  dsimp only
  rw [if_pos (by simp only [sint]; omega), bits32, sint, BitVec.ofInt_toInt]

theorem dec_ne_nil (v : Bits32) : dec v ≠ [] := by
  unfold dec
  split
  · exact List.cons_ne_nil _ _
  · exact decDigits_ne_nil _ _

theorem tokenByte_of_mem_dec {v : Bits32} {b : Byte} (h : b ∈ dec v) : TokenByte b := by
  have hdigits : ∀ b ∈ decDigits 9 (sint v).natAbs, TokenByte b := fun b hb => by
    obtain ⟨d, hd, rfl⟩ := mem_decDigits (natAbs_sint_lt v) hb
    exact tokenByte_digitChar d hd
  unfold dec at h
  split at h
  · rcases List.mem_cons.1 h with rfl | h
    · decide
    · exact hdigits b h
  · exact hdigits b h

/-! A rendered line, and a rendered Program (30_encoding.md R96, R97). -/

theorem tokenByte_of_mem_mnemonic {k : Kind} {b : Byte} (h : b ∈ mnemonic k) : TokenByte b := by
  have hall : (mnemonic k).all (fun b => !isSpace b && b != lf) = true := by cases k <;> rfl
  simpa using List.all_eq_true.1 hall b h

theorem parseLine_renderLine_pushImm (v : Bits32) : parseLine (renderLine (.pushImm v)) = some (.ok (.pushImm v)) := by
  have htok : tokens (renderLine (.pushImm v)) = [pushWord, dec v] :=
    tokens_two_words (fun _ hb => (tokenByte_of_mem_mnemonic (k := .pushImm) hb).1) (fun _ hb => (tokenByte_of_mem_dec hb).1)
      nofun (dec_ne_nil v)
  have hop : parseOperation (upper pushWord) [dec v] = parsePushArg (dec v) := rfl
  rw [parseLine, htok]
  dsimp only
  rw [hop, parsePushArg, parseDecimal_dec]

theorem parseLine_renderLine (i : Instr) : parseLine (renderLine i) = some (.ok i) := by
  cases i with
  | pushImm v => exact parseLine_renderLine_pushImm v
  | pushReg r | popReg r => cases r <;> rfl
  | _ => rfl

theorem tokenByte_regLetter (r : Reg) : TokenByte (regLetter r) := by cases r <;> decide

theorem mem_renderArg {i : Instr} {b : Byte} (h : b ∈ renderArg i) : b = 0x20 ∨ TokenByte b := by
  cases i with
  | pushImm v => exact (List.mem_cons.1 h).imp_right tokenByte_of_mem_dec
  | pushReg r | popReg r =>
    refine (List.mem_cons.1 h).imp_right fun h => ?_
    rw [List.mem_singleton.1 h]
    exact tokenByte_regLetter r
  | _ => cases h

/-- A rendered line holds nothing that ends a line. -/
theorem mem_renderLine {i : Instr} {b : Byte} (h : b ∈ renderLine i) : b ≠ lf ∧ b ≠ cr := by
  have hb : b = 0x20 ∨ TokenByte b :=
    (List.mem_append.1 h).elim (fun h => .inr (tokenByte_of_mem_mnemonic h)) mem_renderArg
  rcases hb with rfl | ⟨hs, hlf⟩
  · decide
  · exact ⟨hlf, by rintro rfl; cases hs⟩

theorem splitLines_render (p : Program) : splitLines (render p) = p.map fun st => renderLine st.instr := by
  induction p with
  | nil => rfl
  | cons st p ih =>
    have hrender : render (st :: p) = renderLine st.instr ++ lf :: render p := by
      simp [render]
    rw [hrender, splitLines, splitLinesFrom_append_lf fun h => (mem_renderLine h).1 rfl, List.nil_append,
      dropFinalCr_of_not_mem fun h => (mem_renderLine h).2 rfl, ih, List.map_cons]

theorem parseLines_renderLine (p : Program) (n : Nat) :
    parseLines n (p.map fun st => renderLine st.instr) = .ok p := by
  induction p generalizing n with
  | nil => rfl
  | cons st p ih =>
    rw [List.map_cons, parseLines, parseLine_renderLine, ih]
    rfl

/-- Settles O53: the lines of a rendered Program are its Statements' lines, and each parses to its instruction. -/
theorem textRoundTrip : Obligations.TextRoundTrip := fun p => by
  rw [parse, splitLines_render, parseLines_renderLine]

end Sys2Proof.Machine
end

section
/-! The statements about the execution cycle: what a step is under the host's control inputs, and the two modes. -/

namespace Sys2Proof.Machine

variable {s : State}

/-! The cycle outside IDLE. -/

/-- A core that is not IDLE, without `rst`: whether `start` is asserted makes no difference (40_execution_cycle.md R101, R109,
R110). -/
theorem State.cycle_of_ne_idle {c : Signals} (hs : s.runState ≠ .idle) (hr : c.rst = false) :
    s.cycle c =
      if s.isOver then .next s
      else if s.takesCancel c then .next { s with runState := .cancelled } else s.runInstruction := by
  cases hrun : s.runState with
  | idle => exact absurd hrun hs
  | _ => simp [State.cycle, State.isOver, hr, hrun]

theorem State.cycle_of_isOver {c : Signals} (hs : s.isOver = true) (hr : c.rst = false) : s.cycle c = .next s := by
  rw [State.cycle_of_ne_idle (fun h => by simp [State.isOver, h] at hs) hr, if_pos hs]

theorem State.cycle_start {c : Signals} {m : Mode} (hs : s.runState = .idle) (hr : c.rst = false) (hm : c.start = some m) :
    s.cycle c = .next (s.started m) := by
  simp [State.cycle, hs, hr, hm]

theorem State.cycle_idle {c : Signals} (hs : s.runState = .idle) (hr : c.rst = false) (hm : c.start = none) :
    s.cycle c = .next s := by
  simp [State.cycle, hs, hr, hm]

theorem State.cycle_takesCancel {c : Signals} (hs : s.runState = .running) (hr : c.rst = false)
    (hc : s.takesCancel c = true) : s.cycle c = .next { s with runState := .cancelled } := by
  rw [State.cycle_of_ne_idle (by simp [hs]) hr, if_neg (by simp [State.isOver, hs]), if_pos hc]

/-- Outside IDLE `start` is not looked at (40_execution_cycle.md R101). -/
theorem State.cycle_start_none (c : Signals) (hs : s.runState ≠ .idle) : s.cycle c = s.cycle { c with start := none } := by
  cases hrun : s.runState with
  | idle => exact absurd hrun hs
  | _ => simp [State.cycle, State.takesCancel, hrun]

/-- Outside RUNNING, or inside an instruction, `cancel` is not looked at (40_execution_cycle.md R110). -/
theorem State.cycle_cancel_false (c : Signals) (hs : s.runState ≠ .running ∨ s.awaiting ≠ none) :
    s.cycle c = s.cycle { c with cancel := false } := by
  cases hrun : s.runState with
  | running =>
    have ha : s.awaiting ≠ none := hs.resolve_left (absurd hrun)
    simp [State.cycle, State.takesCancel, hrun, ha]
  | _ => simp [State.cycle, hrun]

/-- Settles O14: `cycle_of_isOver`, after the control inputs are taken. -/
theorem nothingChangesAfterTheEnd : Obligations.NothingChangesAfterTheEnd := by
  intro s hr hs
  have hover : s.tick.isOver = true := by
    rcases hs with h | h | h | h <;> simp [State.isOver, h]
  exact State.cycle_of_isOver hover hr

/-- Settles O17: `cycle_start` and `cycle_idle` in IDLE, `cycle_start_none` elsewhere. -/
theorem startOnlyFromIdle : Obligations.StartOnlyFromIdle := by
  refine ⟨fun s m hs hr hm => ?_, fun s c later hs => ?_, fun s hs hr hm => State.cycle_idle (s := s.tick) hs hr hm⟩
  · exact ⟨s.tick.started m, State.cycle_start (s := s.tick) hs hr hm, by simp [State.retryCount]⟩
  · exact State.cycle_start_none (s := { s with control := later }) c hs

/-- Settles O18: `cycle_takesCancel` between instructions, `cycle_cancel_false` elsewhere. -/
theorem cancelBetweenInstructions : Obligations.CancelBetweenInstructions := by
  refine ⟨fun s hs hr hc ha => State.cycle_takesCancel (s := s.tick) hs hr ?_, fun s c later hs => ?_⟩
  · simp [State.takesCancel, hc, ha]
  · exact State.cycle_cancel_false (s := { s with control := later }) c hs

/-! The fetch at a Statement and at the end of the program. -/

/-- The entry at the pc is the instruction a decoded-mode fetch finds (40_execution_cycle.md R103). -/
theorem State.fetch_of_statement {st : Statement} (hm : s.mode = .decoded) (h : s.program[s.pc.toNat]? = some st) :
    s.fetch = .instr st.instr := by
  have hlt : s.pc.toNat < s.program.length := (List.getElem?_eq_some_iff.1 h).1
  rw [State.fetch_decoded hm, State.fetchDecoded, if_neg (by omega), h]

/-- At the end of the program a fetch finds it (40_execution_cycle.md R104). -/
theorem State.fetch_of_end (h : s.pc.toNat = s.progEnd) : s.fetch = .endOfProgram := by
  cases hm : s.mode with
  | byte =>
    simp only [State.progEnd, hm] at h
    rw [State.fetch_byte hm, State.fetchByte, if_pos (BitVec.eq_of_toNat_eq h)]
  | decoded =>
    simp only [State.progEnd, hm] at h
    rw [State.fetch_decoded hm, State.fetchDecoded, if_pos h]

theorem State.runInstruction_end (h : s.fetch = .endOfProgram) :
    s.runInstruction = .next { s with runState := .ended } := by
  rw [State.runInstruction, h]

/-- Settles O6: the fetch of each mode finds the instruction, and the core runs it. -/
theorem stepRunsTheDecodedInstruction : Obligations.StepRunsTheDecodedInstruction := by
  refine fun s hs => ⟨fun i n hm hlt hd => ?_, fun st hm hst => ?_⟩
  · exact (step_of_executes hs).trans (State.runInstruction_instr (State.fetch_of_decode (s := s.tick) hm hlt hd))
  · exact (step_of_executes hs).trans (State.runInstruction_instr (State.fetch_of_statement (s := s.tick) hm hst))

/-- Settles O8: in both modes the pc is at the end of the program. -/
theorem runningOffTheEndEnds : Obligations.RunningOffTheEndEnds := by
  intro s hs hpc
  have hend : s.pc.toNat = s.progEnd := by
    rcases hpc with ⟨hm, hpc⟩ | ⟨hm, hpc⟩ <;> simp [State.progEnd, hm, hpc]
  exact (step_of_executes hs).trans (State.runInstruction_end (State.fetch_of_end (s := s.tick) hend))

end Sys2Proof.Machine
end

section
/-! The two modes agree (40_execution_cycle.md R111). Byte mode on a valid program is seen as a view of decoded mode on the
Program it decodes to, `State.byteView`, and every step commutes with the view. -/

/-! Where the Statements of a decoded program lie in its bytes. -/

namespace Sys2Proof

variable {m : OpcodeMap} {bytes : List Byte} {p : Program}

/-- A Program encodes to the bytes it was decoded from. -/
theorem encodeProgram_of_decodeProgram (hm : m.wf = true) (h : decodeProgram m bytes = .ok p) : encodeProgram m p = bytes := by
  induction p generalizing bytes with
  | nil =>
    by_contra hne
    rcases hd : decodeInstruction m bytes with e | ⟨i, n⟩
    · cases h.symm.trans (decodeProgram_of_error hd (Ne.symm hne))
    · rw [decodeProgram_of_ok hd] at h
      cases hp : decodeProgram m (bytes.drop n) <;> rw [hp] at h <;> cases h
  | cons st p ih =>
    have hne : bytes ≠ [] := by rintro rfl; cases h
    rcases hd : decodeInstruction m bytes with e | ⟨i, n⟩
    · cases h.symm.trans (decodeProgram_of_error hd hne)
    · rw [decodeProgram_of_ok hd] at h
      cases hp : decodeProgram m (bytes.drop n) <;> rw [hp] at h <;> cases h
      rw [encodeProgram, List.flatMap_cons, ← encodeProgram, ih hp, encodeInstruction_of_decodeInstruction hm hd,
        List.take_append_drop]

theorem Program.offset_eq_length (m : OpcodeMap) (p : Program) (k : Nat) :
    Program.offset p k = (encodeProgram m (p.take k)).length := by
  simp [Program.offset, encodeProgram, List.length_flatMap, encodeInstruction_length]

theorem Program.offset_succ {i : Instr} {k : Nat} (h : p[k]? = some ⟨i⟩) :
    Program.offset p (k + 1) = Program.offset p k + i.length := by
  simp [Program.offset, List.take_add_one, h]

/-- The encoding from a Statement on lies behind that of the Statements before it. -/
theorem drop_encodeProgram (m : OpcodeMap) (p : Program) (k : Nat) :
    (encodeProgram m p).drop (Program.offset p k) = encodeProgram m (p.drop k) := by
  have hsplit : encodeProgram m p = encodeProgram m (p.take k) ++ encodeProgram m (p.drop k) := by
    rw [encodeProgram, encodeProgram, encodeProgram, ← List.flatMap_append, List.take_append_drop]
  rw [hsplit, List.drop_left' (Program.offset_eq_length m p k).symm]

/-- No Statement lies beyond the end of the encoding. -/
theorem Program.offset_le (m : OpcodeMap) (p : Program) (k : Nat) : Program.offset p k ≤ (encodeProgram m p).length := by
  rw [Program.offset_eq_length m]
  exact ((List.take_sublist k p).flatMap _).length_le

/-- Every Statement has a byte at least. -/
theorem length_le_length_encodeProgram (m : OpcodeMap) (p : Program) : p.length ≤ (encodeProgram m p).length := by
  induction p with
  | nil => exact Nat.zero_le _
  | cons st p ih =>
    simp only [encodeProgram, List.flatMap_cons, List.length_append, List.length_cons, encodeInstruction] at ih ⊢
    omega

end Sys2Proof

namespace Sys2Proof.Machine

variable {d t : State} {i : Instr}

/-! The byte-mode view of a decoded-mode state. -/

/-- The byte-mode state that agrees with a decoded-mode state: the pc and FAULT_PC are byte offsets (40_execution_cycle.md R111,
R107). -/
def State.byteView (d : State) : State :=
  { d with
    mode := .byte
    pc := BitVec.ofNat 32 (Program.offset d.program d.pc.toNat)
    faultPc := BitVec.ofNat 32 (Program.offset d.program d.faultPc.toNat) }

/-- `d` is in decoded mode at a Statement of instruction `i`, and the Program is no longer than the pc can count. -/
def State.AtStatement (i : Instr) (d : State) : Prop :=
  d.mode = .decoded ∧ d.program[d.pc.toNat]? = some ⟨i⟩ ∧ Program.wf d.program = true

/-- An operation of instruction `i` that does to the view what it does to the state. -/
def CommutesWithView (i : Instr) (f : State → Result) : Prop :=
  ∀ d, d.AtStatement i → f d.byteView = mapNext State.byteView (f d)

/-- Past `i` the byte offset is that of the next Statement (40_execution_cycle.md R106, R107). -/
theorem State.commit_byteView (h : d.AtStatement i) : d.byteView.commit i = (d.commit i).byteView := by
  obtain ⟨hm, hst, hwf⟩ := h
  have hlen : d.len i = 1 := by rw [State.len, hm]
  have hpc : (d.pc + d.len i).toNat = d.pc.toNat + 1 := by
    rw [State.pc_add_len_toNat hwf (State.fetch_of_statement hm hst), hlen]
    rfl
  have hoff : d.byteView.pc + d.byteView.len i =
      BitVec.ofNat 32 (Program.offset d.program (d.pc + d.len i).toNat) := by
    rw [hpc, Program.offset_succ hst, BitVec.ofNat_add]
    rfl
  simp only [State.commit, hoff]
  rfl

theorem binop_commutesWithView (f : Bits32 → Bits32 → Alu) : CommutesWithView i (binop i f) := by
  intro d h
  simp only [binop, State.byteView]
  split
  · next b a rest _ =>
    split
    · next r _ => exact congrArg Host.Outcome.next (State.commit_byteView (d := { d with stack := r :: rest }) h)
    · rfl
  · rfl

theorem pushOperand_commutesWithView (v : Bits32) : CommutesWithView i (pushOperand i v) := by
  intro d h
  have hf : d.byteView.full = d.full := rfl
  unfold pushOperand
  rw [hf]
  split
  · rfl
  · exact congrArg Host.Outcome.next (State.commit_byteView (d := { d with stack := v :: d.stack }) h)

theorem execPopReg_commutesWithView (r : Reg) : CommutesWithView (.popReg r) (execPopReg r) := by
  intro d h
  simp only [execPopReg, State.byteView]
  split
  · rfl
  · next v rest _ =>
    exact congrArg Host.Outcome.next (State.commit_byteView (d := { d with stack := rest, x := d.x.set r v }) h)

theorem execHalt_commutesWithView : CommutesWithView .halt execHalt := by
  intro d h
  rw [execHalt, State.commit_byteView h]
  rfl

/-! The ports and the two instructions that use them. -/

theorem outWrite_commutesWithView {text : Text} {k : OutAnswer → State → Result} (hk : ∀ a, CommutesWithView i (k a)) :
    CommutesWithView i (outWrite text k) := by
  intro d h
  simp only [outWrite, State.byteView]
  split
  · rfl
  · rfl
  · next a later _ => exact hk a { d with outAnswers := later, trace := d.trace ++ [.out text a] } h

theorem inRead_commutesWithView {k : InAnswer → State → Result} (hk : ∀ a, CommutesWithView i (k a)) :
    CommutesWithView i (inRead k) := by
  intro d h
  simp only [inRead, State.byteView]
  split
  · rfl
  · rfl
  · next a later _ => exact hk a { d with inAnswers := later, trace := d.trace ++ [.inp a] } h

theorem inputWritten_commutesWithView (a : OutAnswer) : CommutesWithView i (inputWritten a) := by
  intro d _
  cases a <;> rfl

theorem inputRejected_commutesWithView : CommutesWithView i inputRejected := by
  intro d _
  have hr : d.byteView.retriesExceeded (d.byteView.rejected + 1) = d.retriesExceeded (d.rejected + 1) := rfl
  unfold inputRejected
  rw [hr]
  split <;> rfl

theorem inputAccepted_commutesWithView (v : Bits32) : CommutesWithView .input (inputAccepted v) := by
  intro d h
  exact congrArg Host.Outcome.next (State.commit_byteView
    (d := { d with stack := v :: d.stack, waitInput := false, rejected := 0, awaiting := none }) h)

theorem inputAnswered_commutesWithView (a : InAnswer) : CommutesWithView .input (inputAnswered a) := by
  intro d h
  unfold inputAnswered
  split
  · rfl
  · rfl
  · split
    · next v _ => exact inputAccepted_commutesWithView v d h
    · exact inputRejected_commutesWithView d h

theorem inputBegin_commutesWithView : CommutesWithView i inputBegin := by
  intro d h
  have hf : d.byteView.full = d.full := rfl
  unfold inputBegin
  rw [hf]
  split
  · rfl
  · exact outWrite_commutesWithView inputWritten_commutesWithView
      { d with waitInput := true, rejected := 0, awaiting := some .prompt } h

theorem execInput_commutesWithView : CommutesWithView .input execInput := by
  intro d h
  have ha : d.byteView.awaiting = d.awaiting := rfl
  unfold execInput
  rw [ha]
  split
  · exact outWrite_commutesWithView inputWritten_commutesWithView d h
  · exact inRead_commutesWithView inputAnswered_commutesWithView d h
  · exact outWrite_commutesWithView inputWritten_commutesWithView d h
  all_goals exact inputBegin_commutesWithView d h

theorem outputAnswered_commutesWithView (rest : List Bits32) (a : OutAnswer) :
    CommutesWithView .output (outputAnswered rest a) := by
  intro d h
  cases a with
  | ok => exact congrArg Host.Outcome.next (State.commit_byteView (d := { d with stack := rest, awaiting := none }) h)
  | err => rfl

theorem execOutput_commutesWithView : CommutesWithView .output execOutput := by
  intro d h
  have hs : d.byteView.stack = d.stack := rfl
  unfold execOutput
  rw [hs]
  split
  · rfl
  · exact outWrite_commutesWithView (outputAnswered_commutesWithView _) { d with awaiting := some .value } h

/-- Every instruction does to the view what it does to the state (40_execution_cycle.md R107). -/
theorem exec_commutesWithView (i : Instr) : CommutesWithView i (exec i) := by
  cases i with
  | add | sub | mul | div | mod => exact fun d => binop_commutesWithView _ d
  | input => exact execInput_commutesWithView
  | output => exact execOutput_commutesWithView
  | halt => exact execHalt_commutesWithView
  | pushImm v => exact pushOperand_commutesWithView v
  | pushReg r => exact fun d => pushOperand_commutesWithView (d.x.get r) d
  | popReg r => exact execPopReg_commutesWithView r

/-! The program of both modes. -/

/-- The program bytes decode, under a well-formed opcode map, to the Program (30_encoding.md R76). -/
structure State.ProgramDecodes (s : State) : Prop where
  opcodesWf : s.params.opcodes.wf = true
  decodes : decodeProgram s.params.opcodes s.programBytes = .ok s.program

theorem State.programBytes_length (s : State) : s.programBytes.length = s.progLen.toNat := by
  simp [State.programBytes, State.bytesAt]

namespace State.ProgramDecodes

variable {s : State}

theorem encodes (h : s.ProgramDecodes) : encodeProgram s.params.opcodes s.program = s.programBytes :=
  encodeProgram_of_decodeProgram h.opcodesWf h.decodes

theorem length_encodeProgram (h : s.ProgramDecodes) : (encodeProgram s.params.opcodes s.program).length = s.progLen.toNat := by
  rw [h.encodes, State.programBytes_length]

theorem programWf (h : s.ProgramDecodes) : Program.wf s.program = true := by
  have hle := length_le_length_encodeProgram s.params.opcodes s.program
  rw [h.length_encodeProgram] at hle
  exact decide_eq_true (Nat.lt_of_le_of_lt hle s.progLen.isLt)

/-- A byte offset is a value the pc can hold. -/
theorem toNat_offset (h : s.ProgramDecodes) (k : Nat) :
    (BitVec.ofNat 32 (Program.offset s.program k)).toNat = Program.offset s.program k := by
  have hle := Program.offset_le s.params.opcodes s.program k
  rw [h.length_encodeProgram] at hle
  rw [BitVec.toNat_ofNat, Nat.mod_eq_of_lt (Nat.lt_of_le_of_lt hle s.progLen.isLt)]

/-- The end of the Program is at the end of the bytes. -/
theorem offset_length (h : s.ProgramDecodes) : Program.offset s.program s.program.length = s.progLen.toNat := by
  rw [Program.offset_eq_length s.params.opcodes, List.take_length, h.length_encodeProgram]

/-- A window at a Statement decodes to its instruction. -/
theorem decode_window {k : Nat} (h : s.ProgramDecodes) (hpc : s.pc.toNat = Program.offset s.program k)
    (hst : s.program[k]? = some ⟨i⟩) : decodeInstruction s.params.opcodes s.window = .ok (i, i.length) := by
  obtain ⟨hlt, hget⟩ := List.getElem?_eq_some_iff.1 hst
  rw [(windowIsTheProgramBytes s).1, (decodeInstructionTotal _ h.opcodesWf _).2, hpc, ← h.encodes, drop_encodeProgram,
    List.drop_eq_getElem_cons hlt, hget, encodeProgram, List.flatMap_cons,
    decodeInstruction_encodeInstruction_append h.opcodesWf]

end State.ProgramDecodes

/-! A decoded-mode run whose bytes decode to its Program. -/

/-- A started decoded-mode state that a byte-mode run can follow. -/
structure State.Followed (d : State) : Prop where
  program : d.ProgramDecodes
  mode : d.mode = .decoded
  pcBound : d.pc.toNat ≤ d.program.length
  notIdle : d.runState ≠ .idle
  noReset : ∀ c ∈ d.control, c.rst = false

namespace State.Followed

theorem tick (h : d.Followed) : d.tick.Followed where
  program := ⟨h.program.opcodesWf, h.program.decodes⟩
  mode := h.mode
  pcBound := h.pcBound
  notIdle := h.notIdle
  noReset := fun c hc => h.noReset c (List.mem_of_mem_tail hc)

theorem signals_rst (h : d.Followed) : d.signals.rst = false := by
  rw [State.signals]
  cases hc : d.control with
  | nil => rfl
  | cons c later => exact h.noReset c (by simp [hc])

/-- What the two modes fetch: the same (40_execution_cycle.md R102–R104). -/
theorem fetch_cases (h : d.Followed) :
    (d.fetch = .endOfProgram ∧ d.byteView.fetch = .endOfProgram) ∨
      ∃ i, d.fetch = .instr i ∧ d.byteView.fetch = .instr i ∧ d.AtStatement i := by
  have hview : d.byteView.ProgramDecodes := ⟨h.program.opcodesWf, h.program.decodes⟩
  have hpc : d.byteView.pc.toNat = Program.offset d.program d.pc.toNat := h.program.toNat_offset _
  rcases Nat.eq_or_lt_of_le h.pcBound with hend | hlt
  · refine .inl ⟨State.fetch_of_end (by rw [State.progEnd, h.mode, hend]), State.fetch_of_end ?_⟩
    rw [hpc, hend, h.program.offset_length]
    rfl
  · obtain ⟨i, hst⟩ : ∃ i, d.program[d.pc.toNat]? = some ⟨i⟩ := ⟨_, List.getElem?_eq_getElem hlt⟩
    have hd := hview.decode_window hpc hst
    have hin : d.byteView.pc.toNat < d.byteView.progLen.toNat := by
      have hlen := decodeInstruction_ok_bounds hd
      rw [State.window_length, State.avail] at hlen
      omega
    exact .inr ⟨i, State.fetch_of_statement h.mode hst, State.fetch_of_decode rfl hin hd, h.mode, hst, h.program.programWf⟩

/-- The core runs the same instruction in both modes, with the same effect. -/
theorem runInstruction_byteView (h : d.Followed) :
    d.byteView.runInstruction = mapNext State.byteView d.runInstruction := by
  rcases h.fetch_cases with ⟨hd, hb⟩ | ⟨i, hd, hb, hat⟩
  · rw [State.runInstruction_end hd, State.runInstruction_end hb]
    rfl
  · rw [State.runInstruction_instr hd, State.runInstruction_instr hb, exec_commutesWithView i d hat]

/-- A step of byte mode is the view of the step of decoded mode (40_execution_cycle.md R111). -/
theorem step_byteView (h : d.Followed) : step d.byteView = mapNext State.byteView (step d) := by
  have hb : d.byteView.tick.runState ≠ .idle := h.notIdle
  have hrst : d.byteView.signals.rst = false := h.signals_rst
  rw [step, step, State.cycle_of_ne_idle hb hrst, State.cycle_of_ne_idle h.tick.notIdle h.signals_rst]
  show (if d.tick.isOver then _ else if d.tick.takesCancel d.signals then _ else d.tick.byteView.runInstruction) = _
  split
  · rfl
  · split
    · rfl
    · exact h.tick.runInstruction_byteView

/-! Every step goes on to another such state. -/

theorem of_sameEnvironment (h : d.Followed) (he : SameEnvironment d t) (hpc : t.pc.toNat ≤ d.program.length)
    (hrun : t.runState ≠ .idle) : t.Followed where
  program := by
    have hbytes : t.programBytes = d.programBytes := by
      simp only [State.programBytes, State.bytesAt, he.mem, he.progLen]
    exact ⟨he.params ▸ h.program.opcodesWf, by rw [he.params, hbytes, he.program]; exact h.program.decodes⟩
  mode := he.mode.trans h.mode
  pcBound := he.program ▸ hpc
  notIdle := hrun
  noReset := he.control ▸ h.noReset

/-- A step that sets STATE and nothing else. -/
theorem withRunState {r : RunState} (h : d.Followed) (hr : r ≠ .idle) : State.Followed { d with runState := r } :=
  h.of_sameEnvironment ⟨fun _ => rfl, rfl, rfl, rfl, rfl, rfl, rfl⟩ h.pcBound hr

theorem exec_followed (h : d.Followed) (hd : d.fetch = .instr i) : ∃ t, exec i d = .next t ∧ t.Followed := by
  obtain ⟨t, ht⟩ := exec_next i d
  have he := exec_effect ht
  refine ⟨t, ht, h.of_sameEnvironment he.sameEnvironment ?_ ?_⟩
  · rcases he.pc_cases with hpc | ⟨hpc, -⟩
    · exact hpc ▸ h.pcBound
    · have hle := State.pc_add_len_le hd
      rw [State.progEnd, h.mode] at hle
      rw [hpc, BitVec.toNat_add]
      exact Nat.le_trans (Nat.mod_le _ _) hle
  · cases he with
    | raised => exact nofun
    | waits => exact h.notIdle
    | completes =>
      dsimp only
      split
      · exact nofun
      · exact h.notIdle

theorem runInstruction_followed (h : d.Followed) : ∃ t, d.runInstruction = .next t ∧ t.Followed := by
  rcases h.fetch_cases with ⟨hd, -⟩ | ⟨i, hd, -⟩
  · exact ⟨_, State.runInstruction_end hd, h.withRunState nofun⟩
  · exact State.runInstruction_instr hd ▸ h.exec_followed hd

theorem step_followed (h : d.Followed) : ∃ t, step d = .next t ∧ t.Followed := by
  rw [step, State.cycle_of_ne_idle h.tick.notIdle h.signals_rst]
  split
  · exact ⟨_, rfl, h.tick⟩
  · split
    · exact ⟨_, rfl, h.tick.withRunState nofun⟩
    · exact h.tick.runInstruction_followed

/-- A run of byte mode is the view of the run of decoded mode. -/
theorem run_byteView (h : d.Followed) (n : Nat) :
    ∃ t, Host.Core.run Sys2Proof.core n d = .next t ∧ Host.Core.run Sys2Proof.core n d.byteView = .next t.byteView ∧
      t.Followed := by
  induction n generalizing d with
  | zero => exact ⟨d, rfl, rfl, h⟩
  | succ n ih =>
    obtain ⟨u, hu, hfol⟩ := h.step_followed
    have hview : step d.byteView = .next u.byteView := by rw [h.step_byteView, hu, mapNext]
    rw [run_succ hu, run_succ hview]
    exact ih hfol

/-- The view agrees with the state (40_execution_cycle.md R111). -/
theorem agree_byteView (h : d.Followed) : Agree d.byteView d where
  x := rfl
  stack := rfl
  runState := rfl
  cause := rfl
  faultInfo := rfl
  waitInput := rfl
  rejected := rfl
  awaiting := rfl
  trace := rfl
  inAnswers := rfl
  outAnswers := rfl
  control := rfl
  pc := h.program.toNat_offset _
  faultPc := h.program.toNat_offset _

end State.Followed

/-- A valid program started in decoded mode is a run that byte mode can follow. -/
theorem State.ProgramDecodes.started {s : State} (h : s.ProgramDecodes) (hc : ∀ c ∈ s.control, c.rst = false) :
    (s.started .decoded).Followed where
  program := ⟨h.opcodesWf, h.decodes⟩
  mode := rfl
  pcBound := Nat.zero_le _
  notIdle := nofun
  noReset := hc

/-- Started in byte mode, the pc and FAULT_PC are at offset 0, that of the first Statement. -/
theorem State.byteView_started (s : State) : (s.started .decoded).byteView = s.started .byte := rfl

/-- Settles O57: byte mode is the view of decoded mode at the start, by `byteView_started`, and after every number of steps, by
`run_byteView`. -/
theorem theTwoModesAgree : Obligations.TheTwoModesAgree := by
  intro s hm hd hc n
  have hprog : s.ProgramDecodes := ⟨hm, hd⟩
  obtain ⟨t, hrun, hview, ht⟩ := (hprog.started hc).run_byteView n
  rw [State.byteView_started] at hview
  exact ⟨t.byteView, t, hview, hrun, rfl, ht.mode, ht.agree_byteView⟩

end Sys2Proof.Machine
end

section
/-! The statements about arithmetic: the frame of the two-operand instructions, narrowing, and the checks of DIV and MOD. -/

namespace Sys2Proof.Machine

variable {s t : State} {i : Instr} {f : Bits32 → Bits32 → Alu} {a b c q r : Bits32} {rest : List Bits32}

/-! The two-operand frame, forwards (41_arithmetic.md R117). -/

theorem binop_of_depth_lt (h : s.depth < 2) : binop i f s = .next (s.raise .stackUnderflow 0) := by
  obtain ⟨t, ht⟩ := binop_next i f s
  rcases binop_cases ht with ⟨-, rfl⟩ | ⟨a, b, rest, hs, -⟩
  · exact ht
  · simp [State.depth, hs] at h

theorem binop_of_value (hs : s.stack = b :: a :: rest) (hf : f a b = .value r) :
    binop i f s = .next { s with stack := r :: rest, pc := s.pc + s.len i } := by
  simp only [binop, hs, hf]
  rfl

theorem binop_of_trap {e : Exception} (hs : s.stack = b :: a :: rest) (hf : f a b = .trap e) :
    binop i f s = .next (s.raise e 0) := by
  simp only [binop, hs, hf]

/-- One entry in place of the two operands is the operation's value: where it traps, both operands stay. -/
theorem binop_value_of_stack (hs : s.stack = b :: a :: rest) (h : binop i f s = .next t) (ht : t.stack = r :: rest) :
    f a b = .value r := by
  cases hf : f a b with
  | value v =>
    rw [binop_of_value hs hf] at h
    cases h
    rw [(List.cons.inj ht).1]
  | trap e =>
    rw [binop_of_trap hs hf] at h
    cases h
    rw [State.raise_stack, hs] at ht
    simpa using congrArg List.length ht

/-! What the frame leaves alone. -/

theorem exec_eq_binop (hi : i = .add ∨ i = .sub ∨ i = .mul ∨ i = .div ∨ i = .mod) (s : State) :
    ∃ f, exec i s = binop i f s := by
  rcases hi with rfl | rfl | rfl | rfl | rfl <;> exact ⟨_, rfl⟩

theorem binop_samePorts (h : binop i f s = .next t) : SamePorts s t := by
  rcases binop_cases h with ⟨-, rfl⟩ | ⟨a, b, rest, -, ⟨r, -, rfl⟩ | ⟨e, -, rfl⟩⟩ <;> exact ⟨rfl, rfl, rfl⟩

/-- The instruction replaces the two operands by one entry and goes on, or it raises and moves neither the stack nor the pc. -/
theorem binop_completes_or_faults (h : binop i f s = .next t) :
    (SameStatus s t ∧ SameInputState s t ∧ t.pc = s.pc + s.len i ∧
      ∃ a b r rest, s.stack = b :: a :: rest ∧ t.stack = r :: rest) ∨
    (t.runState = .faulted ∧ t.stack = s.stack ∧ t.pc = s.pc) := by
  rcases binop_cases h with ⟨-, rfl⟩ | ⟨a, b, rest, hs, ⟨r, -, rfl⟩ | ⟨e, -, rfl⟩⟩
  · exact .inr ⟨rfl, rfl, rfl⟩
  · exact .inl ⟨⟨rfl, rfl, rfl, rfl⟩, ⟨rfl, rfl, rfl⟩, rfl, a, b, r, rest, hs, rfl⟩
  · exact .inr ⟨rfl, rfl, rfl⟩

/-- Settles O32: each of the five is the two-operand frame. -/
theorem arithmeticFrame : Obligations.ArithmeticFrame := by
  intro i s t hi h
  have hx (r : Reg) : t.x.get r = s.x.get r := exec_regs (by rintro rfl; simp at hi) h
  have he := (exec_effect h).sameEnvironment
  obtain ⟨f, hf⟩ := exec_eq_binop hi s
  rw [hf] at h
  exact ⟨hx, he, binop_samePorts h, binop_completes_or_faults h⟩

/-! Narrowing (R118–R120, R123). -/

theorem narrow_of_fits {m : OverflowMode} {n : Int} (h : m = .wrap ∨ (-2 ^ 31 ≤ n ∧ n ≤ 2 ^ 31 - 1)) :
    narrow m n = .value (bits32 n) := by
  cases m with
  | wrap => rfl
  | trap =>
    have hr : inRange n = true := decide_eq_true (h.resolve_left nofun)
    rw [narrow, hr, if_pos rfl]

theorem narrow_of_not_inRange {n : Int} (h : ¬(-2 ^ 31 ≤ n ∧ n ≤ 2 ^ 31 - 1)) :
    narrow .trap n = .trap .arithmeticOverflow := by
  have hr : inRange n = false := decide_eq_false h
  simp only [narrow, hr, Bool.false_eq_true, if_false]

/-- An operation that narrows its exact result `n`, in both modes. -/
theorem binop_narrow {n : Int} (hs : s.stack = b :: a :: rest) (hf : f a b = narrow s.params.overflow n) :
    (s.params.overflow = .wrap ∨ (-2 ^ 31 ≤ n ∧ n ≤ 2 ^ 31 - 1) →
      binop i f s = .next { s with stack := bits32 n :: rest, pc := s.pc + s.len i }) ∧
    (s.params.overflow = .trap → ¬(-2 ^ 31 ≤ n ∧ n ≤ 2 ^ 31 - 1) →
      binop i f s = .next (s.raise .arithmeticOverflow 0)) := by
  refine ⟨fun h => binop_of_value hs (hf.trans (narrow_of_fits h)), fun hm h => binop_of_trap hs ?_⟩
  rw [hf, hm, narrow_of_not_inRange h]

/-- Settles O26: ADD narrows the exact sum. -/
theorem addCompletesOrRaises : Obligations.AddCompletesOrRaises :=
  ⟨rfl, fun _ => binop_of_depth_lt, fun _ _ _ _ hs => binop_narrow hs rfl⟩

/-- Settles O27: SUB narrows the exact difference. -/
theorem subCompletesOrRaises : Obligations.SubCompletesOrRaises :=
  ⟨rfl, fun _ => binop_of_depth_lt, fun _ _ _ _ hs => binop_narrow hs rfl⟩

/-- Settles O28: MUL narrows the exact product. -/
theorem mulCompletesOrRaises : Obligations.MulCompletesOrRaises :=
  ⟨rfl, fun _ => binop_of_depth_lt, fun _ _ _ _ hs => binop_narrow hs rfl⟩

/-! The checks of DIV and MOD (R124, R125). -/

theorem sint_eq_min_iff : sint a = -2 ^ 31 ↔ a = intMin := by
  rw [← BitVec.toInt_inj, show intMin.toInt = -2 ^ 31 from rfl]

theorem divisionChecks_of_zero {m : OverflowMode} (hb : sint b = 0) :
    divisionChecks m a b c r = .trap .divisionByZero := if_pos hb

theorem divisionChecks_of_regular {m : OverflowMode} (hb : sint b ≠ 0) (h : ¬(sint a = -2 ^ 31 ∧ sint b = -1)) :
    divisionChecks m a b c r = .value r := by
  rw [sint_eq_min_iff] at h
  exact (if_neg hb).trans (if_neg h)

theorem divisionChecks_wrap_of_corner (ha : sint a = -2 ^ 31) (hb : sint b = -1) :
    divisionChecks .wrap a b c r = .value c :=
  (if_neg (by omega)).trans (if_pos ⟨sint_eq_min_iff.1 ha, hb⟩)

theorem divisionChecks_trap_of_corner (ha : sint a = -2 ^ 31) (hb : sint b = -1) :
    divisionChecks .trap a b c r = .trap .arithmeticOverflow :=
  (if_neg (by omega)).trans (if_pos ⟨sint_eq_min_iff.1 ha, hb⟩)

/-- An operation under the checks of DIV and MOD, with the result `r` and `c` at the corner. -/
theorem binop_divisionChecks (hs : s.stack = b :: a :: rest) (hf : f a b = divisionChecks s.params.overflow a b c r) :
    (sint b = 0 → binop i f s = .next (s.raise .divisionByZero 0)) ∧
    (sint b ≠ 0 → ¬(sint a = -2 ^ 31 ∧ sint b = -1) →
      binop i f s = .next { s with stack := r :: rest, pc := s.pc + s.len i }) ∧
    (sint a = -2 ^ 31 → sint b = -1 → s.params.overflow = .wrap →
      binop i f s = .next { s with stack := c :: rest, pc := s.pc + s.len i }) ∧
    (sint a = -2 ^ 31 → sint b = -1 → s.params.overflow = .trap →
      binop i f s = .next (s.raise .arithmeticOverflow 0)) := by
  refine ⟨fun hb => binop_of_trap hs ?_, fun hb h => binop_of_value hs ?_, fun ha hb hm => binop_of_value hs ?_,
    fun ha hb hm => binop_of_trap hs ?_⟩
  · rw [hf, divisionChecks_of_zero hb]
  · rw [hf, divisionChecks_of_regular hb h]
  · rw [hf, hm, divisionChecks_wrap_of_corner ha hb]
  · rw [hf, hm, divisionChecks_trap_of_corner ha hb]

/-- Settles O29: DIV is under the checks, with the truncated quotient. -/
theorem divCompletesOrRaises : Obligations.DivCompletesOrRaises :=
  ⟨rfl, fun _ => binop_of_depth_lt, fun _ _ _ _ hs => binop_divisionChecks hs rfl⟩

/-- Settles O30: MOD is under the checks, with the remainder of the truncated division. -/
theorem modCompletesOrRaises : Obligations.ModCompletesOrRaises :=
  ⟨rfl, fun _ => binop_of_depth_lt, fun _ _ _ _ hs => binop_divisionChecks hs rfl⟩

/-! The division identity (R122). -/

theorem natAbs_tmod_lt {m n : Int} (hn : n ≠ 0) : (m.tmod n).natAbs < n.natAbs := by
  rw [Int.natAbs_tmod]
  exact Nat.mod_lt _ (Int.natAbs_pos.2 hn)

/-- The remainder of two words fits in a word. -/
theorem sint_bits32_tmod (hb : sint b ≠ 0) : sint (bits32 ((sint a).tmod (sint b))) = (sint a).tmod (sint b) := by
  have hlt := natAbs_tmod_lt (m := sint a) hb
  have hlo : -2 ^ 31 ≤ sint b := b.le_toInt
  have hhi : sint b < 2 ^ 31 := b.toInt_lt
  exact BitVec.toInt_ofInt_eq_self (by decide) (by omega) (by omega)

/-- The quotient of DIV, in either mode: at the corner INT_MIN is the exact quotient 2^31 narrowed. -/
theorem aluDiv_value {m : OverflowMode} (h : aluDiv m a b = .value q) : q = bits32 ((sint a).tdiv (sint b)) := by
  obtain ⟨-, ⟨rfl, hb, -, rfl⟩ | ⟨-, rfl⟩⟩ := divisionChecks_value h
  · rw [hb]; rfl
  · rfl

/-- The remainder of MOD, in either mode: at the corner 0 is the exact remainder. -/
theorem aluMod_value {m : OverflowMode} (h : aluMod m a b = .value r) :
    sint b ≠ 0 ∧ sint r = (sint a).tmod (sint b) := by
  obtain ⟨hb0, ⟨rfl, hb, -, rfl⟩ | ⟨-, rfl⟩⟩ := divisionChecks_value h
  · exact ⟨hb0, by rw [hb]; rfl⟩
  · exact ⟨hb0, sint_bits32_tmod hb0⟩

/-- `a = b × q + r` modulo 2^32, from the identity of the exact quotient and remainder. -/
theorem eq_mul_add_of_tdiv_tmod (hq : q = bits32 ((sint a).tdiv (sint b))) (hr : sint r = (sint a).tmod (sint b)) :
    a = b * q + r :=
  calc a = bits32 (sint a) := (BitVec.ofInt_toInt ..).symm
    _ = bits32 (sint b * (sint a).tdiv (sint b) + (sint a).tmod (sint b)) := by rw [Int.mul_tdiv_add_tmod]
    _ = b * q + r := by rw [bits32, BitVec.ofInt_add, BitVec.ofInt_mul, hq, ← hr, BitVec.ofInt_toInt, BitVec.ofInt_toInt]

theorem tmod_eq_zero_or_neg_iff (m n : Int) : m.tmod n = 0 ∨ (m.tmod n < 0 ↔ m < 0) := by
  by_cases h : n ∣ m
  · exact .inl (Int.tmod_eq_zero_of_dvd h)
  · rw [← Int.sign_eq_neg_one_iff_neg, Int.sign_tmod, if_neg h, Int.sign_eq_neg_one_iff_neg]
    exact .inr Iff.rfl

/-- Settles O31: DIV's value is the exact quotient narrowed and MOD's the exact remainder. -/
theorem divAndModAgree : Obligations.DivAndModAgree := by
  intro s t u a b q r rest hs hdiv hq hmod hr _ _
  have hquot := aluDiv_value (binop_value_of_stack hs hdiv hq)
  obtain ⟨hb, hrem⟩ := aluMod_value (binop_value_of_stack hs hmod hr)
  rw [hrem]
  exact ⟨eq_mul_add_of_tdiv_tmod hquot hrem, tmod_eq_zero_or_neg_iff _ _, natAbs_tmod_lt hb⟩

end Sys2Proof.Machine
end

section
/-! The statements about INPUT and OUTPUT: each answer of the ports, what a step may trace, and a whole INPUT. -/

namespace Sys2Proof.Machine

variable {s t q : State} {i : Instr} {text : Text} {v : Bits32} {rest : List Bits32}

/-! The ports, forwards (42_io.md R128, R129, R138). -/

theorem outWrite_of_waits {k : OutAnswer → State → Result} (h : s.outAnswers = [] ∨ s.outAnswers.head? = some none) :
    outWrite text k s = .next { s with outAnswers := s.outAnswers.tail } := by
  unfold outWrite
  split
  · next hq => rw [hq, List.tail_nil, ← hq]
  · next hq => rw [hq, List.tail_cons]
  · next hq => simp [hq] at h

theorem outWrite_of_answer {k : OutAnswer → State → Result} {a : OutAnswer} {later : List (Option OutAnswer)}
    (h : s.outAnswers = some a :: later) :
    outWrite text k s = k a { s with outAnswers := later, trace := s.trace ++ [.out text a] } := by
  simp only [outWrite, h]

theorem inRead_of_waits {k : InAnswer → State → Result} (h : s.inAnswers = [] ∨ s.inAnswers.head? = some none) :
    inRead k s = .next { s with inAnswers := s.inAnswers.tail } := by
  unfold inRead
  split
  · next hq => rw [hq, List.tail_nil, ← hq]
  · next hq => rw [hq, List.tail_cons]
  · next hq => simp [hq] at h

theorem inRead_of_answer {k : InAnswer → State → Result} {a : InAnswer} {later : List (Option InAnswer)}
    (h : s.inAnswers = some a :: later) :
    inRead k s = k a { s with inAnswers := later, trace := s.trace ++ [.inp a] } := by
  simp only [inRead, h]

/-! The part of INPUT or OUTPUT that runs (42_io.md R130, R134). -/

theorem exec_input_of_none (ha : s.awaiting = none) (hf : s.full = false) :
    exec .input s =
      outWrite s.params.promptText inputWritten { s with waitInput := true, rejected := 0, awaiting := some .prompt } := by
  simp only [exec, execInput, ha, inputBegin, hf, Bool.false_eq_true, if_false]

theorem exec_input_of_line (ha : s.awaiting = some .line) : exec .input s = inRead inputAnswered s := by
  simp only [exec, execInput, ha]

/-- With the prompt or the retry message open, that text is written. -/
theorem exec_input_of_write
    (h : s.awaiting = some .prompt ∧ text = s.params.promptText ∨ s.awaiting = some .retry ∧ text = s.params.retryText) :
    exec .input s = outWrite text inputWritten s := by
  rcases h with ⟨ha, rfl⟩ | ⟨ha, rfl⟩ <;> simp only [exec, execInput, ha]

theorem exec_output_of_nil (hs : s.stack = []) : exec .output s = .next (s.raise .stackUnderflow 0) := by
  simp only [exec, execOutput, hs]

theorem exec_output_of_cons (hs : s.stack = v :: rest) :
    exec .output s = outWrite (outputText v) (outputAnswered rest) { s with awaiting := some .value } := by
  simp only [exec, execOutput, hs]

/-! INPUT's line (42_io.md R130–R132). -/

theorem inputAnswered_of_integer {line : Text} (h : parseInt32 line = some v) :
    inputAnswered (.line line) s = inputAccepted v s := by
  simp only [inputAnswered, h]

theorem inputAnswered_of_bad {line : Text} (h : parseInt32 line = none) :
    inputAnswered (.line line) s = inputRejected s := by
  simp only [inputAnswered, h]

theorem State.retriesExceeded_eq_false {n : Nat} :
    s.retriesExceeded n = false ↔ ∀ k, s.params.maxInputRetries = some k → n ≤ k := by
  unfold State.retriesExceeded
  cases s.params.maxInputRetries <;> simp

theorem inputRejected_of_within (h : s.retriesExceeded (s.rejected + 1) = false) :
    inputRejected s = .next { s with rejected := s.rejected + 1, awaiting := some .retry } := by
  simp only [inputRejected, h, Bool.false_eq_true, if_false]

theorem inputRejected_of_exceeded (h : s.retriesExceeded (s.rejected + 1) = true) :
    inputRejected s = .next (s.raise .inputError 3) := by
  simp only [inputRejected, h, if_true]

/-- A line that is no integer, within the retry limit: counted, and the retry message is due. -/
theorem exec_input_of_bad_line {line : Text} {later : List (Option InAnswer)} (ha : s.awaiting = some .line)
    (hq : s.inAnswers = some (.line line) :: later) (hbad : parseInt32 line = none)
    (hk : ∀ k, s.params.maxInputRetries = some k → s.rejected + 1 ≤ k) :
    exec .input s = .next { s with
      rejected := s.rejected + 1, awaiting := some .retry, inAnswers := later,
      trace := s.trace ++ [.inp (.line line)] } := by
  rw [exec_input_of_line ha, inRead_of_answer hq, inputAnswered_of_bad hbad]
  exact inputRejected_of_within (State.retriesExceeded_eq_false.2 hk)

/-! The statements about one step of INPUT or OUTPUT. -/

/-- Settles O45: the limit is compared with the number of rejected lines, one more. -/
theorem inputRejectsALine : Obligations.InputRejectsALine := by
  intro s line later ha hq hbad
  refine ⟨fun hk => ⟨_, exec_input_of_bad_line ha hq hbad hk, State.retryCount_succ rfl, rfl⟩, fun k hmax hk => ?_⟩
  have hx : s.retriesExceeded (s.rejected + 1) = true := by rw [State.retriesExceeded_finite hmax, decide_eq_true hk]
  rw [exec_input_of_line ha, inRead_of_answer hq, inputAnswered_of_bad hbad]
  exact inputRejected_of_exceeded hx

/-- Settles O42: OUTPUT is one write of the top's text, and its answer commits the pop or raises. -/
theorem outputWritesTheTop : Obligations.OutputWritesTheTop := by
  refine ⟨rfl, fun s => exec_output_of_nil, fun s v rest hs => ?_⟩
  rw [exec_output_of_cons hs]
  exact ⟨fun _ hq => outWrite_of_answer (a := .ok) hq, fun _ hq => outWrite_of_answer (a := .err) hq⟩

/-- Settles O43: with room on the stack INPUT's first transaction is the prompt's write. -/
theorem inputBeginsWithThePrompt : Obligations.InputBeginsWithThePrompt := by
  intro s ha hroom
  rw [exec_input_of_none ha (State.full_eq_false.2 hroom)]
  exact ⟨fun _ hq => outWrite_of_answer (a := .ok) hq, fun _ hq => outWrite_of_answer (a := .err) hq,
    fun hq => outWrite_of_waits hq⟩

/-- Settles O44: the line read's answer is accepted. -/
theorem inputCompletesOnAnInteger : Obligations.InputCompletesOnAnInteger := by
  intro s line v later ha hq hv
  rw [exec_input_of_line ha, inRead_of_answer hq, inputAnswered_of_integer hv]
  rfl

/-- Settles O46: each open transaction under each answer, and waiting. -/
theorem portAnswersAndWaits : Obligations.PortAnswersAndWaits := by
  refine fun s => ⟨fun text h => ?_, fun ha => ?_, fun hst hq => ?_⟩
  · rw [exec_input_of_write h]
    exact ⟨fun _ hq => outWrite_of_answer hq, fun _ hq => outWrite_of_answer hq, outWrite_of_waits⟩
  · rw [exec_input_of_line ha]
    exact ⟨fun _ hq => inRead_of_answer hq, fun _ hq => inRead_of_answer hq, inRead_of_waits⟩
  · obtain ⟨v, rest, hs⟩ := List.exists_cons_of_ne_nil hst
    rw [exec_output_of_cons hs]
    exact outWrite_of_waits hq

/-- The retry message written: on to the next line. -/
theorem exec_input_of_retry_ok {later : List (Option OutAnswer)} (ha : s.awaiting = some .retry)
    (hq : s.outAnswers = some .ok :: later) :
    exec .input s = .next { s with
      awaiting := some .line, outAnswers := later, trace := s.trace ++ [.out s.params.retryText .ok] } := by
  rw [exec_input_of_write (.inr ⟨ha, rfl⟩), outWrite_of_answer hq]
  rfl

/-! The frame of INPUT and OUTPUT. -/

/-- An instruction but HALT leaves the status of the run, or it faults at its own pc. -/
theorem ExecEffect.sameStatus_or_faulted (h : ExecEffect i s t) (hi : i ≠ .halt) :
    SameStatus s t ∨ (t.runState = .faulted ∧ t.pc = s.pc) := by
  cases h with
  | raised => exact .inr ⟨rfl, rfl⟩
  | waits => exact .inl ⟨rfl, rfl, rfl, rfl⟩
  | completes => exact .inl ⟨if_neg hi, rfl, rfl, rfl⟩

/-- INPUT and OUTPUT move the pc and the stack together, and only where they complete. -/
theorem ExecEffect.stack_with_pc (h : ExecEffect i s t) (hi : i = .input ∨ i = .output) :
    (t.pc = s.pc ∧ t.stack = s.stack) ∨
      (t.pc = s.pc + s.len i ∧ t.awaiting = none ∧ SameStatus s t ∧
        ((i = .input ∧ t.stack.tail = s.stack ∧ t.stack ≠ []) ∨
          (i = .output ∧ s.stack.tail = t.stack ∧ s.stack ≠ []))) := by
  cases h with
  | raised | waits => exact .inl ⟨rfl, rfl⟩
  | completes _ _ _ _ hs hw =>
    obtain ⟨henough, hkept, hlength, -⟩ := hs
    refine .inr ⟨rfl, ?_⟩
    cases hw with
    | input =>
      refine ⟨rfl, ⟨rfl, rfl, rfl, rfl⟩, .inl ⟨rfl, by simpa [Instr.pops, Instr.pushes] using hkept, ?_⟩⟩
      rintro rfl
      simp [Instr.pops, Instr.pushes] at hlength
    | output =>
      exact ⟨rfl, ⟨rfl, rfl, rfl, rfl⟩, .inr ⟨rfl, by simpa [Instr.pops, Instr.pushes] using hkept.symm,
        List.ne_nil_of_length_pos henough⟩⟩
    | other hin hout => exact absurd hi (not_or.2 ⟨hin, hout⟩)

/-- OUTPUT leaves the INPUT state alone unless it faults. -/
theorem ExecEffect.output_input_state (h : ExecEffect .output s t) (hf : t.runState ≠ .faulted) :
    t.waitInput = s.waitInput ∧ t.rejected = s.rejected := by
  cases h with
  | raised => exact absurd rfl hf
  | waits _ _ _ hw => cases hw; exact ⟨rfl, rfl⟩
  | completes _ _ _ _ _ hw =>
    cases hw with
    | output => exact ⟨rfl, rfl⟩
    | other _ ho => exact absurd rfl ho

/-- OUTPUT takes no answer to an input transaction. -/
theorem execOutput_inAnswers (h : execOutput s = .next t) : t.inAnswers = s.inAnswers := by
  rcases execOutput_cases h with ⟨-, rfl⟩ | ⟨v, rest, -, ⟨-, rfl⟩ | ⟨later, -, rfl⟩ | ⟨later, -, rfl⟩⟩ <;> rfl

/-- However an instruction ends, its ports are as after its one look at them. -/
theorem ExecEnds.polled (h : ExecEnds i s t) : ∃ q, Polled s q ∧ SamePorts q t := by
  cases h with
  | raised q hq | waits q hq | completes q hq => exact ⟨q, hq, rfl, rfl, rfl⟩

/-- A look at the ports traces nothing, or one transaction with the answer the host had for it (42_io.md R139). -/
theorem Polled.trace_cases (h : Polled s q) :
    q.trace = s.trace ∨
    (∃ text a, q.trace = s.trace ++ [.out text a] ∧ s.outAnswers = some a :: q.outAnswers ∧ q.inAnswers = s.inAnswers) ∨
    (∃ a, q.trace = s.trace ++ [.inp a] ∧ s.inAnswers = some a :: q.inAnswers ∧ q.outAnswers = s.outAnswers) := by
  cases h with
  | none | outWaits | inWaits => exact .inl rfl
  | out text a later h => exact .inr (.inl ⟨text, a, rfl, h, rfl⟩)
  | inp a later h => exact .inr (.inr ⟨a, rfl, h, rfl⟩)

theorem Polled.trace_extends (h : Polled s q) : ∃ made, q.trace = s.trace ++ made ∧ made.length ≤ 1 := by
  rcases h.trace_cases with h | ⟨text, a, h, -⟩ | ⟨a, h, -⟩
  · exact ⟨[], by simp [h], Nat.zero_le _⟩
  · exact ⟨_, h, Nat.le_refl _⟩
  · exact ⟨_, h, Nat.le_refl _⟩

/-- A look at the ports takes at most one answer from each queue. -/
theorem Polled.answers (h : Polled s q) :
    (q.inAnswers = s.inAnswers ∨ q.inAnswers = s.inAnswers.tail) ∧
    (q.outAnswers = s.outAnswers ∨ q.outAnswers = s.outAnswers.tail) := by
  cases h with
  | none => exact ⟨.inl rfl, .inl rfl⟩
  | outWaits => exact ⟨.inl rfl, .inr rfl⟩
  | inWaits => exact ⟨.inr rfl, .inl rfl⟩
  | out text a later h => exact ⟨.inl rfl, .inr (by rw [h, List.tail_cons])⟩
  | inp a later h => exact ⟨.inr (by rw [h, List.tail_cons]), .inl rfl⟩

/-- Settles O47: the stack, the pc and the status by `ExecEffect`, the trace and the queues by `Polled`. -/
theorem portInstructionFrame : Obligations.PortInstructionFrame := by
  intro i s t hi h
  have hx (r : Reg) : t.x.get r = s.x.get r := exec_regs (by rintro rfl; simp at hi) h
  have he := exec_effect h
  obtain ⟨q, hq, htrace, hin, hout⟩ := (exec_ends h).polled
  obtain ⟨hqin, hqout⟩ := hq.answers
  refine ⟨hx, he.sameEnvironment, he.stack_with_pc hi, he.sameStatus_or_faulted (by rintro rfl; simp at hi),
    htrace ▸ hq.trace_extends, ?_, hout ▸ hqout, ?_⟩
  · rcases hi with rfl | rfl
    · exact (hin ▸ hqin).imp_right fun h => ⟨rfl, h⟩
    · exact .inl (execOutput_inAnswers h)
  · rintro rfl
    exact he.output_input_state

/-! What a step may trace (42_io.md R128, R139). -/

/-- Only an instruction that runs can change the trace of a run. -/
theorem State.cycle_trace_cases {c : Signals} (hs : s.runState = .idle → s.trace = []) (hr : c.rst = false)
    (h : s.cycle c = .next t) : t.trace = s.trace ∨ ∃ i, s.fetch = .instr i ∧ exec i s = .next t := by
  rcases State.cycle_cases h with ⟨hc, -⟩ | ⟨-, ⟨m, hi, -, rfl⟩ | ⟨-, -, rfl⟩ | ⟨-, -, rfl⟩ | ⟨-, -, hx⟩ | ⟨-, rfl⟩⟩
  · cases hc.symm.trans hr
  · exact .inl (hs hi).symm
  · exact .inl rfl
  · exact .inl rfl
  · rcases State.runInstruction_cases hx with ⟨-, rfl⟩ | hx | ⟨e, -, rfl⟩
    · exact .inl rfl
    · exact .inr hx
    · cases e <;> exact .inl rfl
  · exact .inl rfl

/-- Settles O48: an instruction looks at the ports at most once, and nothing else changes the trace of a run. -/
theorem traceIsNeverUndone : Obligations.TraceIsNeverUndone := by
  intro s t hs hr h
  rcases State.cycle_trace_cases (s := s.tick) (fun hi => absurd hi hs) hr h with h | ⟨i, -, hx⟩
  · exact .inl h
  · obtain ⟨q, hq, htrace, hin, hout⟩ := (exec_ends hx).polled
    rw [htrace, hin, hout]
    exact hq.trace_cases

theorem pushOperand_samePorts (h : pushOperand i v s = .next t) : SamePorts s t := by
  rcases pushOperand_cases h with ⟨-, rfl⟩ | ⟨-, rfl⟩ <;> exact ⟨rfl, rfl, rfl⟩

theorem execPopReg_samePorts {r : Reg} (h : execPopReg r s = .next t) : SamePorts s t := by
  rcases execPopReg_cases h with ⟨-, rfl⟩ | ⟨v, rest, -, rfl⟩ <;> exact ⟨rfl, rfl, rfl⟩

/-- The nine instructions without a port transaction. -/
theorem exec_samePorts (hi : i ≠ .input) (ho : i ≠ .output) (h : exec i s = .next t) : SamePorts s t := by
  cases i with
  | add | sub | mul | div | mod => exact binop_samePorts h
  | input => exact absurd rfl hi
  | output => exact absurd rfl ho
  | halt => cases h; exact ⟨rfl, rfl, rfl⟩
  | pushImm v => exact pushOperand_samePorts h
  | pushReg r => exact pushOperand_samePorts h
  | popReg r => exact execPopReg_samePorts h

/-- The text of the one output transaction a trace was extended by. -/
theorem text_eq_of_append_out_eq {tr : List Transaction} {text' : Text} {a b : OutAnswer}
    (h : tr ++ [.out text a] = tr ++ [.out text' b]) : text' = text := by
  cases List.append_cancel_left h
  rfl

/-- An output transaction of INPUT's write is of the text written. -/
theorem outWrite_inputWritten_traces {text' : Text} {a : OutAnswer} (h : outWrite text inputWritten s = .next t)
    (ht : t.trace = s.trace ++ [.out text' a]) : text' = text := by
  rcases outWrite_inputWritten_cases h with ⟨-, rfl⟩ | ⟨later, -, rfl⟩ | ⟨later, -, rfl⟩
  · simp at ht
  · exact text_eq_of_append_out_eq ht
  · exact text_eq_of_append_out_eq ht

theorem inputBegin_traces {a : OutAnswer} (h : inputBegin s = .next t) (ht : t.trace = s.trace ++ [.out text a]) :
    text = s.params.promptText := by
  rcases inputBegin_cases h with ⟨-, rfl⟩ | ⟨-, ⟨-, rfl⟩ | ⟨later, -, rfl⟩ | ⟨later, -, rfl⟩⟩
  · simp at ht
  · simp at ht
  · exact text_eq_of_append_out_eq ht
  · exact text_eq_of_append_out_eq ht

theorem inRead_inputAnswered_traces_no_output {text : Text} {a : OutAnswer} (h : inRead inputAnswered s = .next t) :
    t.trace ≠ s.trace ++ [.out text a] := by
  rcases inRead_inputAnswered_cases h with
    ⟨-, rfl⟩ | ⟨b, later, -, ⟨n, -, rfl⟩ | ⟨line, v, -, -, rfl⟩ | ⟨line, -, -, -, rfl⟩⟩ <;> simp

/-- INPUT's output transactions are the prompt and the retry message (42_io.md R130). -/
theorem execInput_traces {a : OutAnswer} (ha : s.awaiting ≠ some .value) (h : execInput s = .next t)
    (ht : t.trace = s.trace ++ [.out text a]) :
    ((s.awaiting = none ∨ s.awaiting = some .prompt) ∧ text = s.params.promptText) ∨
    (s.awaiting = some .retry ∧ text = s.params.retryText) := by
  rcases execInput_cases h with ⟨hnone | hval, h⟩ | ⟨hp, h⟩ | ⟨hl, h⟩ | ⟨hr, h⟩
  · exact .inl ⟨.inl hnone, inputBegin_traces h ht⟩
  · exact absurd hval ha
  · exact .inl ⟨.inr hp, outWrite_inputWritten_traces h ht⟩
  · exact absurd ht (inRead_inputAnswered_traces_no_output h)
  · exact .inr ⟨hr, outWrite_inputWritten_traces h ht⟩

/-- OUTPUT's output transaction is the text of the top (42_io.md R134, R135). -/
theorem execOutput_traces {a : OutAnswer} (h : execOutput s = .next t) (ht : t.trace = s.trace ++ [.out text a]) :
    ∃ v rest, s.stack = v :: rest ∧ text = outputText v := by
  rcases execOutput_cases h with ⟨-, rfl⟩ | ⟨v, rest, hs, hcase⟩
  · simp at ht
  · refine ⟨v, rest, hs, ?_⟩
    rcases hcase with ⟨-, rfl⟩ | ⟨later, -, rfl⟩ | ⟨later, -, rfl⟩
    · simp at ht
    · exact text_eq_of_append_out_eq ht
    · exact text_eq_of_append_out_eq ht

/-- With INPUT fetched, OUTPUT's transaction is not open. -/
theorem State.awaiting_ne_value_of_fetch_input (ha : s.awaitingOk = true) (hf : s.fetch = .instr .input) :
    s.awaiting ≠ some .value := fun hval => by
  rcases State.awaiting_of_fetch ha hf with h | ⟨-, h⟩ | ⟨h, -⟩
  · cases hval.symm.trans h
  · cases h
  · rw [hval] at h
    cases h

/-- Settles O49: the instruction that ran is INPUT or OUTPUT, and each is taken with the texts it writes. -/
theorem threeKindsOfOutput : Obligations.ThreeKindsOfOutput := by
  intro s t text a hinv hr h ht
  have hidle : s.runState = .idle → s.trace = [] := fun hi => (congrArg State.trace (hinv.idle hi)).symm
  rcases State.cycle_trace_cases (s := s.tick) hidle hr h with hsame | ⟨i, hf, hx⟩
  · rw [hsame] at ht
    simp at ht
  · cases i with
    | input =>
      have ha : s.awaiting ≠ some .value := State.awaiting_ne_value_of_fetch_input hinv.awaiting hf
      rcases execInput_traces (s := s.tick) ha hx ht with ⟨hp, htext⟩ | ⟨hr, htext⟩
      · exact .inl ⟨hf, hp, htext⟩
      · exact .inr (.inl ⟨hf, hr, htext⟩)
    | output => exact .inr (.inr ⟨hf, execOutput_traces (s := s.tick) hx ht⟩)
    | _ =>
      have hports : SamePorts s.tick t := exec_samePorts (by nofun) (by nofun) hx
      simp [hports.trace] at ht

/-! The decimal text of a value, read as a line (42_io.md R131). -/

/-- Whitespace before a word is dropped, and nothing else. -/
theorem dropWhile_isSpace_append {before word : Text} (hb : ∀ b ∈ before, isSpace b = true) (hne : word ≠ [])
    (hw : ∀ b ∈ word, isSpace b = false) (t : Text) : (before ++ word ++ t).dropWhile isSpace = word ++ t := by
  obtain ⟨b, word, rfl⟩ := List.exists_cons_of_ne_nil hne
  rw [List.append_assoc, List.dropWhile_append_of_pos hb, List.cons_append,
    List.dropWhile_cons_of_neg (by simp [hw b List.mem_cons_self])]

theorem trim_append_append {before word after : Text} (hb : ∀ b ∈ before, isSpace b = true) (hne : word ≠ [])
    (hw : ∀ b ∈ word, isSpace b = false) (ha : ∀ b ∈ after, isSpace b = true) : trim (before ++ word ++ after) = word := by
  have hback := dropWhile_isSpace_append (before := after.reverse) (word := word.reverse) (by simpa using ha)
    (by simpa using hne) (by simpa using hw) []
  rw [List.append_nil, List.append_nil] at hback
  rw [trim, dropWhile_isSpace_append hb hne hw, List.reverse_append, hback, List.reverse_reverse]

/-- Settles O50: trimming leaves the decimal text, which reads back as the value. -/
theorem decimalTextReadsBack : Obligations.DecimalTextReadsBack := by
  intro v before after hb ha
  rw [parseInt32, trim_append_append hb (dec_ne_nil v) (fun _ h => (tokenByte_of_mem_dec h).1) ha, parseDecimal_dec]

/-! A whole INPUT (42_io.md R130). -/

/-- A running core with INPUT at the pc and no control input to come. -/
structure State.RunsInput (s : State) : Prop where
  running : s.runState = .running
  quiet : s.control = []
  fetched : s.fetch = .instr .input

theorem State.RunsInput.step (h : s.RunsInput) : step s = exec .input s := by
  have hsig : s.signals = {} := by rw [State.signals, h.quiet]; rfl
  have htick : s.tick = s := by rw [State.tick, h.quiet, List.tail_nil, ← h.quiet]
  rw [step_of_executes ⟨h.running, by rw [hsig], .inl (by rw [hsig])⟩, htick, State.runInstruction_instr h.fetched]

/-- Where the INPUT in progress is in its loop is no matter. -/
theorem State.RunsInput.inProgress (h : s.RunsInput) (w : Bool) (c : Nat) (a : Option Awaiting) (tr : List Transaction)
    (ia : List (Option InAnswer)) (oa : List (Option OutAnswer)) :
    State.RunsInput
      { s with waitInput := w, rejected := c, awaiting := a, trace := tr, inAnswers := ia, outAnswers := oa } :=
  ⟨h.running, h.quiet, h.fetched⟩

/-- The transactions of the lines INPUT rejects, each followed by the retry message. -/
def retryTrace (retryText : Text) (bad : List Text) : List Transaction :=
  bad.flatMap fun t => [.inp (.line t), .out retryText .ok]

@[simp] theorem retryTrace_nil (retryText : Text) : retryTrace retryText [] = [] := rfl

@[simp] theorem retryTrace_cons (retryText line : Text) (bad : List Text) :
    retryTrace retryText (line :: bad) = .inp (.line line) :: .out retryText .ok :: retryTrace retryText bad := rfl

/-- One bad line within the limit: it is read and counted, and the retry message is written. -/
theorem run_input_bad_line {line : Text} {ins : List (Option InAnswer)} {outs : List (Option OutAnswer)} (hs : s.RunsInput)
    (ha : s.awaiting = some .line) (hbad : parseInt32 line = none)
    (hk : ∀ k, s.params.maxInputRetries = some k → s.rejected + 1 ≤ k) (hout : s.outAnswers = some .ok :: outs)
    (hin : s.inAnswers = some (.line line) :: ins) :
    Host.Core.run Sys2Proof.core 2 s = .next { s with
      rejected := s.rejected + 1, awaiting := some .line, outAnswers := outs, inAnswers := ins,
      trace := s.trace ++ retryTrace s.params.retryText [line] } := by
  have hread := hs.step.trans (exec_input_of_bad_line ha hin hbad hk)
  rw [run_succ hread, run_succ ((hs.inProgress ..).step.trans (exec_input_of_retry_ok rfl hout)), run_zero]
  simp

/-- From the line read on: two steps for each bad line, and one for the integer. -/
theorem run_input_lines (bad : List Text) {line : Text} (hs : s.RunsInput) (ha : s.awaiting = some .line)
    (hbad : ∀ t ∈ bad, parseInt32 t = none) (hline : parseInt32 line = some v)
    (hk : ∀ k, s.params.maxInputRetries = some k → s.rejected + bad.length ≤ k)
    (hout : s.outAnswers = List.replicate bad.length (some .ok))
    (hin : s.inAnswers = (bad ++ [line]).map (fun t => some (.line t))) :
    Host.Core.run Sys2Proof.core (1 + 2 * bad.length) s = .next { s with
      stack := v :: s.stack, pc := s.pc + s.len .input, waitInput := false, rejected := 0, awaiting := none,
      outAnswers := [], inAnswers := [],
      trace := s.trace ++ retryTrace s.params.retryText bad ++ [.inp (.line line)] } := by
  induction bad generalizing s with
  | nil =>
    have hread := inputCompletesOnAnInteger s line v [] ha hin hline
    rw [List.length_nil, Nat.mul_zero, Nat.add_zero, run_succ (hs.step.trans hread), run_zero, hout]
    simp
  | cons t bad ih =>
    have hcount : ∀ k, s.params.maxInputRetries = some k → s.rejected + 1 + bad.length ≤ k := fun k hmax => by
      have := hk k hmax
      rw [List.length_cons] at this
      omega
    rw [List.length_cons, List.replicate_succ] at hout
    rw [List.cons_append, List.map_cons] at hin
    obtain ⟨hbadLine, hbadLater⟩ := List.forall_mem_cons.1 hbad
    have hround := run_input_bad_line hs ha hbadLine (fun k hmax => by have := hcount k hmax; omega) hout hin
    rw [List.length_cons, show 1 + 2 * (bad.length + 1) = 2 + (1 + 2 * bad.length) by omega, run_add hround,
      ih (hs.inProgress ..) rfl hbadLater hcount rfl rfl]
    simp [State.len]

/-- Settles O51: one step for the prompt, and then `run_input_lines`. -/
theorem inputRunsToCompletion : Obligations.InputRunsToCompletion := by
  intro s bad line v hrun hquiet ha hf hroom hbad hline hk hout hin hwait hrej
  have hs : s.RunsInput := ⟨hrun, hquiet, hf⟩
  have hprompt := (inputBeginsWithThePrompt s ha hroom).1 _ hout
  have hwithin : ∀ k, s.params.maxInputRetries = some k → 0 + bad.length ≤ k := by simpa using hk
  rw [show 2 + 2 * bad.length = (1 + 2 * bad.length) + 1 by omega, run_succ (hs.step.trans hprompt),
    run_input_lines bad (hs.inProgress ..) rfl hbad hline hwithin rfl hin]
  simp [retryTrace, State.len, ha, hwait, hrej]

end Sys2Proof.Machine
end

section
/-! HALT (43_halt.md R140). -/

namespace Sys2Proof.Machine

/-- A one-byte instruction advances the pc by 1 in both modes. -/
theorem State.len_of_length_one {i : Instr} (hi : i.length = 1) (s : State) : s.len i = 1 := by
  apply BitVec.eq_of_toNat_eq
  rw [State.len_toNat, hi, ite_self]
  rfl

/-- HALT is a commit that ends the run. -/
theorem exec_halt (s : State) : exec .halt s = .next { s.commit .halt with runState := .halted } := rfl

/-- Settles O41: HALT's commit advances the pc by the length of a one-byte instruction. -/
theorem haltCompletes : Obligations.HaltCompletes := by
  refine ⟨rfl, fun s => ?_⟩
  rw [exec_halt, State.commit, State.len_of_length_one rfl]

end Sys2Proof.Machine
end

section
/-! The statements about PUSH imm, PUSH reg and POP reg (44_stack_register.md). -/

namespace Sys2Proof.Machine

variable {s t : State} {i : Instr} {v : Bits32} {r : Reg} {rest : List Bits32}

/-! A push, forwards (44_stack_register.md R142, R143). -/

theorem pushOperand_of_room (h : ∀ n, s.params.stackDepth = some n → s.depth < n) :
    pushOperand i v s = .next { s with stack := v :: s.stack, pc := s.pc + s.len i } := by
  have hf : s.full = false := State.full_eq_false.2 h
  simp only [pushOperand, hf, Bool.false_eq_true, if_false]
  rfl

theorem pushOperand_of_full_depth (h : s.params.stackDepth = some s.depth) :
    pushOperand i v s = .next (s.raise .stackOverflow 0) := by
  have hf : s.full = true := State.full_eq_true.2 ⟨s.depth, h, Nat.le_refl _⟩
  simp only [pushOperand, hf, if_true]

/-- Settles O33: PUSH imm is a push of its Value. -/
theorem pushImmCompletesOrRaises : Obligations.PushImmCompletesOrRaises :=
  fun _ => ⟨rfl, fun _ => ⟨pushOperand_of_room, pushOperand_of_full_depth⟩⟩

/-- Settles O34: PUSH reg is a push of the register's value. -/
theorem pushRegCompletesOrRaises : Obligations.PushRegCompletesOrRaises :=
  ⟨rfl, rfl, rfl, rfl, fun _ _ => pushOperand_of_full_depth, fun _ hroom =>
    ⟨pushOperand_of_room hroom, pushOperand_of_room hroom, pushOperand_of_room hroom, pushOperand_of_room hroom⟩⟩

/-! A pop into a register, forwards (44_stack_register.md R144). -/

theorem exec_popReg_of_nil (hs : s.stack = []) : exec (.popReg r) s = .next (s.raise .stackUnderflow 0) := by
  simp only [exec, execPopReg, hs]

theorem exec_popReg_of_cons (hs : s.stack = v :: rest) :
    exec (.popReg r) s = .next { s with stack := rest, x := s.x.set r v, pc := s.pc + s.len (.popReg r) } := by
  simp only [exec, execPopReg, hs]
  rfl

/-- Settles O35: the top goes to the one register `Regs.set` names. -/
theorem popRegCompletesOrRaises : Obligations.PopRegCompletesOrRaises :=
  ⟨rfl, rfl, rfl, rfl, fun _ _ => exec_popReg_of_nil, fun _ _ _ hs =>
    ⟨exec_popReg_of_cons hs, exec_popReg_of_cons hs, exec_popReg_of_cons hs, exec_popReg_of_cons hs⟩⟩

/-! A push of a register and the pop that takes it back (44_stack_register.md R145). -/

@[simp] theorem Regs.set_get_self (x : Regs) (r : Reg) : x.set r (x.get r) = x := by
  cases r <;> rfl

/-- Settles O38: the pop writes to the register what it held. -/
theorem pushThenPopIsNeutral : Obligations.PushThenPopIsNeutral := by
  intro r s hroom
  have hpush : exec (.pushReg r) s = _ := pushOperand_of_room hroom
  refine ⟨_, _, hpush, exec_popReg_of_cons rfl, ?_, rfl, ?_⟩
  · exact Regs.set_get_self s.x r
  · rw [Regs.set_get_self]
    rfl

/-! The frame of the three. -/

/-- A push adds one entry and goes on, or it faults and moves neither the stack, the registers nor the pc. -/
theorem pushOperand_completes_or_faults (h : pushOperand i v s = .next t) :
    (SameStatus s t ∧ SameInputState s t ∧ t.pc = s.pc + s.len i ∧ t.stack.tail = s.stack ∧ t.stack ≠ []) ∨
    (t.runState = .faulted ∧ t.stack = s.stack ∧ t.x = s.x ∧ t.pc = s.pc) := by
  rcases pushOperand_cases h with ⟨-, rfl⟩ | ⟨-, rfl⟩
  · exact .inr ⟨rfl, rfl, rfl, rfl⟩
  · exact .inl ⟨⟨rfl, rfl, rfl, rfl⟩, ⟨rfl, rfl, rfl⟩, rfl, rfl, List.cons_ne_nil _ _⟩

/-- POP reg removes one entry and goes on, or it faults and moves neither the stack, the registers nor the pc. -/
theorem execPopReg_completes_or_faults (h : execPopReg r s = .next t) :
    (SameStatus s t ∧ SameInputState s t ∧ t.pc = s.pc + s.len (.popReg r) ∧ s.stack.tail = t.stack ∧ s.stack ≠ []) ∨
    (t.runState = .faulted ∧ t.stack = s.stack ∧ t.x = s.x ∧ t.pc = s.pc) := by
  rcases execPopReg_cases h with ⟨-, rfl⟩ | ⟨v, rest, hs, rfl⟩
  · exact .inr ⟨rfl, rfl, rfl, rfl⟩
  · rw [hs]
    exact .inl ⟨⟨rfl, rfl, rfl, rfl⟩, ⟨rfl, rfl, rfl⟩, rfl, rfl, List.cons_ne_nil _ _⟩

/-- Both PUSHes are `pushOperand`. -/
theorem exec_eq_pushOperand (hi : (∃ v, i = .pushImm v) ∨ ∃ r, i = .pushReg r) (s : State) :
    ∃ v, exec i s = pushOperand i v s := by
  rcases hi with ⟨v, rfl⟩ | ⟨r, rfl⟩ <;> exact ⟨_, rfl⟩

/-- Settles O36: what stays is said over all instructions; the stack and the pc are those of a push or of POP reg. -/
theorem transferFrame : Obligations.TransferFrame := by
  intro i s t hi h
  have hp : SamePorts s t := exec_samePorts (by rintro rfl; simp at hi) (by rintro rfl; simp at hi) h
  refine ⟨(exec_effect h).sameEnvironment, hp, fun r hr => exec_regs hr h, ?_⟩
  rcases or_assoc.2 hi with hpush | ⟨r, rfl⟩
  · have hnotPop : ∀ r, i ≠ .popReg r := by rintro r rfl; simp at hpush
    obtain ⟨v, hv⟩ := exec_eq_pushOperand hpush s
    rw [hv] at h
    exact (pushOperand_completes_or_faults h).imp_left fun ⟨hstatus, hinput, hpc, hstack⟩ =>
      ⟨hstatus, hinput, hpc, .inl ⟨hnotPop, hstack⟩⟩
  · exact (execPopReg_completes_or_faults h).imp_left fun ⟨hstatus, hinput, hpc, hstack⟩ =>
      ⟨hstatus, hinput, hpc, .inr ⟨⟨r, rfl⟩, hstack⟩⟩

end Sys2Proof.Machine
end

section
/-! The statements about exceptions (60_exceptions.md): where each comes from, what a fault writes, and when each is raised. -/

namespace Sys2Proof

/-- A decode error comes from no instruction (60_exceptions.md R148). -/
theorem Instr.raises_eq_false {i : Instr} {e : Machine.Exception} {n : Byte} (h : e.raisers = []) : i.raises e n = false := by
  rw [Instr.raises, h, List.contains_nil, Bool.false_and]

end Sys2Proof

namespace Sys2Proof.Machine

variable {s t : State} {i : Instr} {e : Exception} {d : DecodeError}

/-! Where an exception comes from (60_exceptions.md R148, 10_state.md R37). -/

/-- What a step of a running core can do without `rst`. -/
theorem State.cycle_running_cases {c : Signals} (hs : s.runState = .running) (hr : c.rst = false) (h : s.cycle c = .next t) :
    t = { s with runState := .cancelled } ∨ t = { s with runState := .ended } ∨
      (∃ i, s.fetch = .instr i ∧ exec i s = .next t) ∨ ∃ d, s.fetch = .malformed d ∧ t = s.raiseDecode d := by
  rw [State.cycle_of_ne_idle (by simp [hs]) hr, if_neg (by simp [State.isOver, hs])] at h
  split at h
  · cases h
    exact .inl rfl
  · rcases State.runInstruction_cases h with ⟨-, ht⟩ | hx | hd
    · exact .inr (.inl ht)
    · exact .inr (.inr (.inl hx))
    · exact .inr (.inr (.inr hd))

/-- An exception an instruction records is one the table gives for it. -/
theorem exec_raises (h : exec i s = .next t) (hc : s.cause = none) (ht : t.cause = some e) :
    i.raises e t.faultInfo = true ∧ (e = .arithmeticOverflow → s.params.overflow = .trap) := by
  cases exec_ends h with
  | raised q hq e' n he hm =>
    cases ht
    exact ⟨he, hm⟩
  | waits q hq | completes q hq =>
    rw [hq.eq] at ht
    cases hc.symm.trans ht

/-- A decode error is met in byte mode only, within the program. -/
theorem State.decode_of_fetch_malformed (h : s.fetch = .malformed d) :
    s.mode = .byte ∧ s.pc.toNat < s.progLen.toNat ∧ decodeInstruction s.params.opcodes s.window = .error d := by
  rcases s.fetch_cases with ⟨hf, -⟩ | ⟨hf, -⟩ | ⟨hm, hlt, ⟨_, _, -, hf⟩ | ⟨d', hd, hf⟩⟩ | ⟨-, -, _, hf⟩
  case inr.inr.inl.inr =>
    cases h.symm.trans hf
    exact ⟨hm, hlt, hd⟩
  all_goals cases h.symm.trans hf

/-- Settles O21: an instruction raises what the table gives for it, and the fetch raises the decode error it met. -/
theorem exceptionsByInstruction : Obligations.ExceptionsByInstruction := by
  intro s t e hs hr hc h ht
  rcases State.cycle_running_cases (s := s.tick) hs hr h with rfl | rfl | ⟨i, hf, hx⟩ | ⟨d, hf, rfl⟩
  · cases hc.symm.trans ht
  · cases hc.symm.trans ht
  · obtain ⟨hraises, hmode⟩ := exec_raises hx hc ht
    have hlisted : e.raisers ≠ [] := fun hnil => by
      rw [Instr.raises_eq_false hnil] at hraises
      cases hraises
    refine ⟨?_, ?_, ?_, fun _ => ⟨i, hf, hraises⟩, hmode⟩ <;> (rintro rfl; exact absurd rfl hlisted)
  · obtain ⟨hm, -, -⟩ := State.decode_of_fetch_malformed hf
    cases d with
    | endOfInput =>
      cases ht
      exact ⟨fun _ => ⟨hm, hf, rfl⟩, nofun, nofun, fun ⟨hne, _⟩ => absurd rfl hne, nofun⟩
    | wrongOpCode b =>
      cases ht
      exact ⟨nofun, fun _ => ⟨hm, hf⟩, nofun, fun ⟨_, hne, _⟩ => absurd rfl hne, nofun⟩
    | wrongRegister b =>
      cases ht
      exact ⟨nofun, nofun, fun _ => ⟨hm, hf⟩, fun ⟨_, _, hne⟩ => absurd rfl hne, nofun⟩

/-! Fault entry (60_exceptions.md R160). -/

/-- From a running core only an instruction that raises ends FAULTED. -/
theorem ExecEffect.eq_raise (h : ExecEffect i s t) (hs : s.runState = .running) (ht : t.runState = .faulted) :
    ∃ e n, t = ({ s with
      trace := t.trace, inAnswers := t.inAnswers, outAnswers := t.outAnswers } : State).raise e n := by
  cases h with
  | raised tr ia oa e n => exact ⟨e, n, rfl⟩
  | waits => cases hs.symm.trans ht
  | completes =>
    have hrun : (if i = .halt then .halted else s.runState) = RunState.faulted := ht
    split at hrun
    · cases hrun
    · cases hs.symm.trans hrun

/-- Settles O20: the instruction raises, or the fetch raises its decode error. -/
theorem faultEntryIsPrecise : Obligations.FaultEntryIsPrecise := by
  intro s t hs hr h ht
  rcases State.cycle_running_cases (s := s.tick) hs hr h with rfl | rfl | ⟨i, -, hx⟩ | ⟨d, -, rfl⟩
  · cases ht
  · cases ht
  · exact (exec_effect hx).eq_raise hs ht
  · cases d <;> exact ⟨_, _, rfl⟩

/-! The exceptions of the fetch (60_exceptions.md R149–R151). -/

/-- A byte of the fetch window is the program byte at that distance from the pc (20_memory.md R53). -/
theorem State.window_getElem?_eq_some {k : Nat} {b : Byte} :
    s.window[k]? = some b ↔ k < s.avail ∧ s.mem.read (s.pc.toNat + k) = b := by
  simp [State.window, State.bytesAt, List.getElem?_eq_some_iff]

/-- Byte `k` is in the window, `k` below 5, where the program reaches past it. -/
theorem State.lt_avail_iff {k : Nat} (hk : k < 5) : k < s.avail ↔ s.pc.toNat + k < s.progLen.toNat := by
  unfold State.avail
  omega

/-- The opcode byte is the window's first. -/
theorem State.window_zero {b : Byte} (hlt : s.pc.toNat < s.progLen.toNat) :
    s.window[0]? = some b ↔ s.mem.read s.pc.toNat = b := by
  simp [State.window_getElem?_eq_some, State.lt_avail_iff, hlt]

/-- The operand's first byte is the window's second. -/
theorem State.window_one {b : Byte} :
    s.window[1]? = some b ↔ s.pc.toNat + 1 < s.progLen.toNat ∧ s.mem.read (s.pc.toNat + 1) = b := by
  rw [State.window_getElem?_eq_some, State.lt_avail_iff (by omega)]

/-- A step whose bytes do not decode raises the decode error. -/
theorem step_of_decode_error (h : s.executes) (hm : s.mode = .byte) (hlt : s.pc.toNat < s.progLen.toNat)
    (hd : decodeInstruction s.params.opcodes s.window = .error d) : step s = .next (s.tick.raiseDecode d) := by
  have hne : s.pc ≠ s.progLen := fun heq => by simp [heq] at hlt
  have hf : s.tick.fetch = .malformed d := by
    rw [State.tick_fetch, State.fetch_byte hm, State.fetchByte, if_neg hne, if_neg (by omega), hd]
  rw [step_of_executes h, State.runInstruction, hf]

/-- Settles O9: the window holds the bytes left, up to five, and no instruction is longer. -/
theorem endOfInputAtFetch : Obligations.EndOfInputAtFetch := by
  intro s hx hmap hm hc _
  refine ⟨fun k hk hlt hlen => step_of_decode_error hx hm hlt (decodeInstruction_endOfInput_iff.2 (.inr ?_)),
    fun t h ht => ?_⟩
  · refine ⟨_, k, (State.window_zero hlt).2 rfl, hmap ▸ hk, ?_⟩
    rw [State.window_length, State.avail]
    omega
  · obtain ⟨hs, hr, -⟩ := hx
    obtain ⟨hend, -⟩ := exceptionsByInstruction s t _ hs hr hc h ht
    obtain ⟨-, hf, hinfo⟩ := hend rfl
    obtain ⟨-, hlt, hd⟩ := State.decode_of_fetch_malformed hf
    rcases decodeInstruction_endOfInput_iff.1 hd with hnil | ⟨b, k, h0, hk, hlen⟩
    · have havail := s.window_length
      rw [hnil, List.length_nil, State.avail] at havail
      omega
    · cases (State.window_zero hlt).1 h0
      have hfive := k.length_le_five
      rw [State.window_length, State.avail] at hlen
      refine ⟨hlt, k, hmap ▸ hk, by omega, ?_⟩
      rw [hinfo, BitVec.toNat_ofNat]
      omega

/-- Settles O10: the bytes the map has no kind for are 11 to 255. -/
theorem wrongOpCodeAtFetch : Obligations.WrongOpCodeAtFetch := by
  intro s hx hmap hm hc hlt
  refine ⟨fun hb => step_of_decode_error hx hm hlt (decodeInstruction_wrongOpCode_iff.2 ?_), fun t h ht => ?_⟩
  · exact ⟨(State.window_zero hlt).2 rfl, (OpcodeMap.kindOf_eq_none hmap _).2 hb⟩
  · obtain ⟨hs, hr, -⟩ := hx
    obtain ⟨-, hop, -⟩ := exceptionsByInstruction s t _ hs hr hc h ht
    obtain ⟨-, hf⟩ := hop rfl
    obtain ⟨-, -, hd⟩ := State.decode_of_fetch_malformed hf
    obtain ⟨h0, hk⟩ := decodeInstruction_wrongOpCode_iff.1 hd
    rw [(State.window_zero hlt).1 h0]
    exact ⟨(OpcodeMap.kindOf_eq_none hmap _).1 hk, rfl⟩

/-- Settles O11: the opcode and the register byte are the window's first two. -/
theorem wrongRegisterAtFetch : Obligations.WrongRegisterAtFetch := by
  intro s hx hmap hm hc hlt
  have herror (b : Byte) : decodeInstruction s.params.opcodes s.window = .error (.wrongRegister b) ↔
      (s.mem.read s.pc.toNat = 9 ∨ s.mem.read s.pc.toNat = 10) ∧
        (s.pc.toNat + 1 < s.progLen.toNat ∧ s.mem.read (s.pc.toNat + 1) = b) ∧ 3 < b.toNat := by
    rw [hmap, decodeInstruction_default_wrongRegister_iff, State.window_zero hlt, State.window_zero hlt, State.window_one]
  refine ⟨fun h0 h1 hb => step_of_decode_error hx hm hlt ((herror _).2 ⟨h0, ⟨h1, rfl⟩, hb⟩), fun t h ht => ?_⟩
  obtain ⟨hs, hr, -⟩ := hx
  obtain ⟨-, -, hreg, -⟩ := exceptionsByInstruction s t _ hs hr hc h ht
  obtain ⟨-, hf⟩ := hreg rfl
  obtain ⟨-, -, hd⟩ := State.decode_of_fetch_malformed hf
  obtain ⟨h0, ⟨h1, hread⟩, hb⟩ := (herror _).1 hd
  exact ⟨h0, h1, hread ▸ hb, hread.symm⟩

/-! StackUnderflow (60_exceptions.md R152). -/

theorem State.stack_eq_nil (h : s.depth < 1) : s.stack = [] := List.length_eq_zero_iff.1 (Nat.lt_one_iff.1 h)

/-- The instructions that pop two entries are the two-operand frame, and trap with nothing but DivisionByZero and
ArithmeticOverflow. -/
theorem exec_eq_binop_traps (hi : i.pops = 2) (s : State) :
    ∃ f, exec i s = binop i f s ∧ ∀ a b e, f a b = .trap e → e = .divisionByZero ∨ e = .arithmeticOverflow := by
  cases i with
  | add | sub | mul => exact ⟨_, rfl, fun a b e h => .inr (narrow_trap h).1⟩
  | div | mod => exact ⟨_, rfl, fun a b e h => (divisionChecks_trap h).imp And.left And.left⟩
  | _ => cases hi

theorem exec_of_depth_lt_pops (h : s.depth < i.pops) : exec i s = .next (s.raise .stackUnderflow 0) := by
  cases i with
  | add | sub | mul | div | mod => exact binop_of_depth_lt h
  | output => exact exec_output_of_nil (State.stack_eq_nil h)
  | popReg r => exact exec_popReg_of_nil (State.stack_eq_nil h)
  | input | halt | pushImm | pushReg => exact absurd h (Nat.not_lt_zero _)

theorem exec_underflow_of_pops_two (h : exec i s = .next t) (hi : i.pops = 2) (hc : s.cause = none)
    (ht : t.cause = some .stackUnderflow) : s.depth < 2 := by
  obtain ⟨f, hf, htraps⟩ := exec_eq_binop_traps hi s
  rcases binop_cases (hf ▸ h) with ⟨hd, -⟩ | ⟨a, b, rest, -, ⟨r, -, rfl⟩ | ⟨e, he, rfl⟩⟩
  · exact hd
  · cases hc.symm.trans ht
  · cases ht
    rcases htraps a b _ he with he | he <;> cases he

theorem execOutput_underflow (hc : s.cause = none) (h : execOutput s = .next t) (ht : t.cause = some .stackUnderflow) :
    s.depth < 1 := by
  rcases execOutput_cases h with ⟨hs, -⟩ | ⟨v, rest, -, ⟨-, rfl⟩ | ⟨later, -, rfl⟩ | ⟨later, -, rfl⟩⟩
  · simp [State.depth, hs]
  · cases hc.symm.trans ht
  · cases hc.symm.trans ht
  · cases ht

theorem execPopReg_underflow {r : Reg} (hc : s.cause = none) (h : execPopReg r s = .next t)
    (ht : t.cause = some .stackUnderflow) : s.depth < 1 := by
  rcases execPopReg_cases h with ⟨hs, -⟩ | ⟨v, rest, -, rfl⟩
  · simp [State.depth, hs]
  · cases hc.symm.trans ht

/-- Settles O22: the seven instructions that pop, each by its own check; the table lists no other. -/
theorem stackUnderflowExactly : Obligations.StackUnderflowExactly := by
  refine fun i s => ⟨exec_of_depth_lt_pops, fun t hc h ht => ?_⟩
  obtain ⟨hraises, -⟩ := exec_raises h hc ht
  cases i with
  | add | sub | mul | div | mod => exact exec_underflow_of_pops_two h rfl hc ht
  | output => exact execOutput_underflow hc h ht
  | popReg r => exact execPopReg_underflow hc h ht
  | input | halt | pushImm | pushReg => simp [Instr.raises, Exception.raisers, Instr.kind] at hraises

/-! StackOverflow (60_exceptions.md R153). -/

/-- INPUT's check, before its prompt. -/
theorem exec_input_of_full (ha : s.awaiting = none) (hf : s.full = true) :
    exec .input s = .next (s.raise .stackOverflow 0) := by
  simp only [exec, execInput, ha, inputBegin, hf, if_true]

theorem outWrite_inputWritten_cause {text : Text} (h : outWrite text inputWritten s = .next t) :
    t.cause = s.cause ∨ t.cause = some .outputError := by
  rcases outWrite_inputWritten_cases h with ⟨-, rfl⟩ | ⟨later, -, rfl⟩ | ⟨later, -, rfl⟩
  · exact .inl rfl
  · exact .inl rfl
  · exact .inr rfl

theorem inRead_inputAnswered_cause (h : inRead inputAnswered s = .next t) :
    t.cause = s.cause ∨ t.cause = some .inputError := by
  rcases inRead_inputAnswered_cases h with
    ⟨-, rfl⟩ | ⟨a, later, -, ⟨n, -, rfl⟩ | ⟨line, v, -, -, rfl⟩ | ⟨line, -, -, -, rfl⟩⟩
  · exact .inl rfl
  · exact .inr rfl
  · exact .inl rfl
  · exact .inl rfl

theorem execInput_overflow (hc : s.cause = none) (h : execInput s = .next t) (ht : t.cause = some .stackOverflow) :
    s.full = true := by
  rcases execInput_cases h with ⟨-, h⟩ | ⟨-, h⟩ | ⟨-, h⟩ | ⟨-, h⟩
  · rcases inputBegin_cases h with ⟨hf, -⟩ | ⟨-, ⟨-, rfl⟩ | ⟨later, -, rfl⟩ | ⟨later, -, rfl⟩⟩
    · exact hf
    · cases hc.symm.trans ht
    · cases hc.symm.trans ht
    · cases ht
  · rcases outWrite_inputWritten_cause h with h | h <;> simp [h, hc] at ht
  · rcases inRead_inputAnswered_cause h with h | h <;> simp [h, hc] at ht
  · rcases outWrite_inputWritten_cause h with h | h <;> simp [h, hc] at ht

theorem pushOperand_overflow {v : Bits32} (hc : s.cause = none) (h : pushOperand i v s = .next t)
    (ht : t.cause = some .stackOverflow) : s.full = true := by
  rcases pushOperand_cases h with ⟨hf, -⟩ | ⟨-, rfl⟩
  · exact hf
  · cases hc.symm.trans ht

/-- Settles O23: the three instructions that push without a pop, each by the stack-full check; the table lists no other. -/
theorem stackOverflowExactly : Obligations.StackOverflowExactly := by
  refine fun s => ⟨fun n hn hd => ?_, fun i t hc h ht => ?_⟩
  · subst hd
    exact ⟨fun v => pushOperand_of_full_depth hn, fun r => pushOperand_of_full_depth hn,
      fun ha => exec_input_of_full ha (State.full_eq_true.2 ⟨_, hn, Nat.le_refl _⟩)⟩
  · obtain ⟨hraises, -⟩ := exec_raises h hc ht
    cases i with
    | input => exact ⟨rfl, rfl, State.full_eq_true.1 (execInput_overflow hc h ht)⟩
    | pushImm v => exact ⟨rfl, rfl, State.full_eq_true.1 (pushOperand_overflow hc h ht)⟩
    | pushReg r => exact ⟨rfl, rfl, State.full_eq_true.1 (pushOperand_overflow hc h ht)⟩
    | _ => simp [Instr.raises, Exception.raisers, Instr.kind] at hraises

/-! The exceptions of arithmetic (60_exceptions.md R154, R155). -/

/-- Settles O25: in Wrap mode by `exec_raises`; in Trap mode by narrowing and by the checks of DIV and MOD. -/
theorem arithmeticOverflowInTrapMode : Obligations.ArithmeticOverflowInTrapMode := by
  refine ⟨fun i s t hw hc h ht => ?_, fun s a b rest hs hm => ?_⟩
  · obtain ⟨-, hmode⟩ := exec_raises h hc ht
    cases hw.symm.trans (hmode rfl)
  · refine ⟨(binop_narrow hs rfl).2 hm, (binop_narrow hs rfl).2 hm, (binop_narrow hs rfl).2 hm, fun ha hb => ?_⟩
    obtain ⟨-, -, hdiv⟩ := divCompletesOrRaises
    obtain ⟨-, -, hmod⟩ := modCompletesOrRaises
    obtain ⟨-, -, -, hdivTrap⟩ := hdiv s a b rest hs
    obtain ⟨-, -, -, hmodTrap⟩ := hmod s a b rest hs
    exact ⟨hdivTrap ha hb hm, hmodTrap ha hb hm⟩

/-- Settles O24: the first of the checks of DIV and MOD. -/
theorem divisionByZeroRaised : Obligations.DivisionByZeroRaised := by
  intro s a rest hs
  obtain ⟨-, -, hdiv⟩ := divCompletesOrRaises
  obtain ⟨-, -, hmod⟩ := modCompletesOrRaises
  exact ⟨(hdiv s a 0 rest hs).1 rfl, (hmod s a 0 rest hs).1 rfl⟩

end Sys2Proof.Machine
end

section
/-! The statements about a whole run and its host: the program it provides, the empty program, and a run whose host answers. -/

namespace Sys2Proof.Machine

variable {s t : State} {i : Instr} {r fuel : Nat}

/-! The program the host provides (70_reset_and_hazards.md R174). -/

theorem State.provideBytes_of_idle {bytes : List Byte} (hs : s.runState = .idle) (hb : bytes.length < 2 ^ 32) :
    s.provideBytes bytes = { s with mem := Memory.ofBytes 0 bytes, progLen := BitVec.ofNat 32 bytes.length } :=
  if_pos ⟨hs, hb⟩

theorem State.provideBytes_progLen {bytes : List Byte} (hs : s.runState = .idle) (hb : bytes.length < 2 ^ 32) :
    (s.provideBytes bytes).progLen.toNat = bytes.length := by
  rw [State.provideBytes_of_idle hs hb, BitVec.toNat_ofNat, Nat.mod_eq_of_lt hb]

theorem State.provideBytes_programBytes {bytes : List Byte} (hs : s.runState = .idle) (hb : bytes.length < 2 ^ 32) :
    (s.provideBytes bytes).programBytes = bytes := by
  refine List.ext_getElem (by rw [State.programBytes_length, State.provideBytes_progLen hs hb]) fun k _ hk => ?_
  simpa [State.programBytes, State.bytesAt, State.provideBytes_of_idle hs hb] using Memory.read_ofBytes bytes 0 k hk

theorem State.Inv.provideBytes {bytes : List Byte} (h : s.Inv) (hs : s.runState = .idle) (hb : bytes.length < 2 ^ 32) :
    (s.provideBytes bytes).Inv := by
  have hlen := State.provideBytes_progLen hs hb
  rw [State.provideBytes_of_idle hs hb] at hlen ⊢
  have hrst := h.idle hs
  have hpc : s.pc = 0 := congrArg State.pc hrst.symm
  have ha : s.awaiting = none := congrArg State.awaiting hrst.symm
  refine { h with
    memCanonical := Memory.ofBytes_wf bytes 0
    memBelow := fun c hc => ?_
    pcBound := by simp [hpc]
    awaiting := State.awaitingOk_iff.2 (.inl ha)
    idle := fun _ => congrArg
      (fun q : State => { q with mem := Memory.ofBytes 0 bytes, progLen := BitVec.ofNat 32 bytes.length }) hrst }
  have hbelow := (Memory.mem_ofBytes hc).2
  rwa [Nat.zero_add, ← hlen] at hbelow

/-- Settles O59: the bytes are read back by `Memory.read_ofBytes`; IDLE is the reset state, so the pc is within any program. -/
theorem providedBytesAreTheProgram : Obligations.ProvidedBytesAreTheProgram := fun _ _ hs hb =>
  ⟨State.provideBytes_programBytes hs hb, State.provideBytes_progLen hs hb, fun h => h.provideBytes hs hb⟩

/-! The empty program (70_reset_and_hazards.md R185). -/

/-- Settles O19: `start` resets the pc, which is the end of the empty program. -/
theorem emptyProgramEnds : Obligations.EmptyProgramEnds := by
  intro s m hs hempty hr hm hquiet
  have hstart : step s = .next (s.tick.started m) := State.cycle_start (s := s.tick) hs hr hm
  have hsig : (s.tick.started m).signals = {} := hquiet
  have hend := runningOffTheEndEnds (s.tick.started m) ⟨rfl, by rw [hsig], .inl (by rw [hsig])⟩
    (hempty.imp (fun ⟨hmode, hlen⟩ => ⟨hmode, hlen.symm⟩) fun ⟨hmode, hprog⟩ => ⟨hmode, by simp [hprog]⟩)
  rw [run_succ hstart, run_succ hend, run_zero]
  exact ⟨_, rfl, rfl, rfl, rfl, rfl, rfl, rfl, rfl⟩

/-! A run whose host answers (70_reset_and_hazards.md R184). `State.Budget r fuel` is the statement's premise carried along the
run: `r` more lines may be rejected and `fuel` steps are left. Each byte or Statement left takes at most a write and a line read,
each rejected line one more of both, and the end of the program one step. -/

/-- The bytes or Statements left. -/
def State.left (s : State) : Nat := s.progEnd - s.pc.toNat

/-- INPUT has its line read open: the write before it is done. -/
def State.lineOpen (s : State) : Nat := if s.awaiting = some .line then 1 else 0

/-- The host's answers and `fuel` steps are enough for the rest of the run, with at most `r` more rejected lines. -/
structure State.Budget (s : State) (r fuel : Nat) : Prop where
  /-- the retry limit or the bad lines to come bound the rejected lines -/
  rejects : (∃ k, s.params.maxInputRetries = some k ∧ s.left * k ≤ r + s.rejected) ∨ s.badLines ≤ r
  ins : s.left + r ≤ answersIn s.inAnswers
  outs : s.left + r ≤ answersIn s.outAnswers + s.lineOpen
  steps : 2 * (s.left + r) + 1 + pausesIn s.inAnswers + pausesIn s.outAnswers ≤ fuel + s.lineOpen

/-- The run has faulted, or what is left of it is within `fuel` steps. -/
def State.Affords (s : State) (fuel : Nat) : Prop := s.runState = .faulted ∨ ∃ r, s.Budget r fuel

theorem State.lineOpen_of_ne (h : s.awaiting ≠ some .line) : s.lineOpen = 0 := if_neg h

theorem State.lineOpen_of_line (h : s.awaiting = some .line) : s.lineOpen = 1 := if_pos h

theorem State.lineOpen_le_one (s : State) : s.lineOpen ≤ 1 := by
  unfold State.lineOpen
  split <;> omega

theorem State.left_pos (hf : s.fetch = .instr i) : 0 < s.left := by
  have hle := State.pc_add_len_le hf
  have hpos := s.len_pos i
  unfold State.left
  omega

/-- An instruction that completes leaves less. -/
theorem State.left_lt_of_completes (hp : Program.wf s.program = true) (hf : s.fetch = .instr i)
    (hend : t.progEnd = s.progEnd) (hpc : t.pc = s.pc + s.len i) : t.left < s.left := by
  have hle := State.pc_add_len_le hf
  have hpos := s.len_pos i
  have hadd := State.pc_add_len_toNat hp hf
  rw [State.left, State.left, hend, hpc, hadd]
  omega

theorem State.badLines_le (h : t.inAnswers.Sublist s.inAnswers) : t.badLines ≤ s.badLines := h.countP_le

/-- A line read that is open belongs to the INPUT at the pc. -/
theorem State.Inv.fetch_of_line (h : s.Inv) (ha : s.awaiting = some .line) : s.fetch = .instr .input := by
  rcases State.awaitingOk_iff.1 h.awaiting with h0 | ⟨h0, -⟩ | ⟨-, -, hf, -⟩
  · cases ha.symm.trans h0
  · cases ha.symm.trans h0
  · exact hf

/-! The budget across each use of the ports. -/

/-- A write is opened. -/
theorem State.Budget.opened {c : Nat} (h : s.Budget r fuel) (hl : s.lineOpen = 0) (w : Bool) (hc : c = s.rejected)
    (a : Awaiting) : State.Budget { s with waitInput := w, rejected := c, awaiting := some a } r fuel := by
  obtain ⟨hrejects, hin, hout, hsteps⟩ := h
  rw [hl] at hout hsteps
  subst hc
  exact ⟨hrejects, hin, hout.trans (Nat.add_le_add_left (Nat.zero_le _) _),
    hsteps.trans (Nat.add_le_add_left (Nat.zero_le _) _)⟩

theorem State.Budget.outWaits (h : s.Budget r (fuel + 1)) (hleft : 0 < s.left) (hl : s.lineOpen = 0)
    (hq : s.outAnswers = [] ∨ s.outAnswers.head? = some none) :
    State.Budget { s with outAnswers := s.outAnswers.tail } r fuel := by
  obtain ⟨hrejects, hin, hout, hsteps⟩ := h
  obtain ⟨hanswers, hpauses⟩ := answersIn_tail_of_waits hq (by omega)
  exact ⟨hrejects, hin, show s.left + r ≤ answersIn s.outAnswers.tail + s.lineOpen by omega,
    show 2 * (s.left + r) + 1 + pausesIn s.inAnswers + pausesIn s.outAnswers.tail ≤ fuel + s.lineOpen by omega⟩

theorem State.Budget.inWaits (h : s.Budget r (fuel + 1)) (hleft : 0 < s.left)
    (hq : s.inAnswers = [] ∨ s.inAnswers.head? = some none) :
    State.Budget { s with inAnswers := s.inAnswers.tail } r fuel := by
  obtain ⟨hrejects, hin, hout, hsteps⟩ := h
  obtain ⟨hanswers, hpauses⟩ := answersIn_tail_of_waits hq (by omega)
  have hbad : ({ s with inAnswers := s.inAnswers.tail } : State).badLines ≤ s.badLines :=
    State.badLines_le (List.tail_sublist _)
  exact ⟨hrejects.imp_right hbad.trans, show s.left + r ≤ answersIn s.inAnswers.tail by omega, hout,
    show 2 * (s.left + r) + 1 + pausesIn s.inAnswers.tail + pausesIn s.outAnswers ≤ fuel + s.lineOpen by omega⟩

/-- A write of INPUT is answered, and its line read is open. -/
theorem State.Budget.written {later : List (Option OutAnswer)} {a : OutAnswer} (h : s.Budget r (fuel + 1))
    (hl : s.lineOpen = 0) (hq : s.outAnswers = some a :: later) (tr : List Transaction) :
    State.Budget { s with awaiting := some .line, outAnswers := later, trace := tr } r fuel := by
  obtain ⟨hrejects, hin, hout, hsteps⟩ := h
  rw [hq] at hout hsteps
  rw [answersIn_some] at hout
  rw [pausesIn_some] at hsteps
  exact ⟨hrejects, hin, show s.left + r ≤ answersIn later + 1 by omega,
    show 2 * (s.left + r) + 1 + pausesIn s.inAnswers + pausesIn later ≤ fuel + 1 by omega⟩

/-- A rejected line is one of those the budget is for. -/
theorem State.Budget.rejects_succ {line : Text} {later : List (Option InAnswer)} (h : s.Budget r fuel) (hleft : 0 < s.left)
    (hq : s.inAnswers = some (.line line) :: later) (hbad : parseInt32 line = none)
    (hk : s.retriesExceeded (s.rejected + 1) = false) :
    ∃ r', r = r' + 1 ∧
      ((∃ k, s.params.maxInputRetries = some k ∧ s.left * k ≤ r' + (s.rejected + 1)) ∨
        ({ s with inAnswers := later } : State).badLines ≤ r') := by
  rcases h.rejects with ⟨k, hmax, hle⟩ | hle
  · have hlimit := State.retriesExceeded_eq_false.1 hk k hmax
    have hmul : k ≤ s.left * k := Nat.le_mul_of_pos_left k hleft
    exact ⟨r - 1, by omega, .inl ⟨k, hmax, by omega⟩⟩
  · have hcount : s.badLines = ({ s with inAnswers := later } : State).badLines + 1 := by
      simp [State.badLines, hq, InAnswer.isBadLine, hbad]
    exact ⟨r - 1, by omega, .inr (by omega)⟩

/-- A line is rejected, and the retry message is due. -/
theorem State.Budget.rejected {line : Text} {later : List (Option InAnswer)} (h : s.Budget r (fuel + 1)) (hleft : 0 < s.left)
    (ha : s.awaiting = some .line) (hq : s.inAnswers = some (.line line) :: later) (hbad : parseInt32 line = none)
    (hk : s.retriesExceeded (s.rejected + 1) = false) (tr : List Transaction) :
    ∃ r', State.Budget
      { s with rejected := s.rejected + 1, awaiting := some .retry, inAnswers := later, trace := tr } r' fuel := by
  obtain ⟨r', rfl, hrejects⟩ := h.rejects_succ hleft hq hbad hk
  obtain ⟨-, hin, hout, hsteps⟩ := h
  rw [State.lineOpen_of_line ha] at hout hsteps
  rw [hq] at hin hsteps
  rw [answersIn_some] at hin
  rw [pausesIn_some] at hsteps
  exact ⟨r', hrejects, show s.left + r' ≤ answersIn later by omega, show s.left + r' ≤ answersIn s.outAnswers + 0 by omega,
    show 2 * (s.left + r') + 1 + pausesIn later + pausesIn s.outAnswers ≤ fuel + 0 by omega⟩

/-! The budget across an instruction. -/

theorem answersIn_le_of_polled {α : Type} {q later : List (Option α)} (h : later = q ∨ later = q.tail) :
    answersIn q ≤ answersIn later + 1 ∧ pausesIn later ≤ pausesIn q := by
  rcases h with rfl | rfl
  · exact ⟨Nat.le_succ _, Nat.le_refl _⟩
  · match q with
    | [] => exact ⟨Nat.zero_le _, Nat.le_refl _⟩
    | none :: q => simp
    | some a :: q => simp

/-- With its line read open INPUT takes no answer to a write. -/
theorem exec_outAnswers_of_line (hi : s.Inv) (hf : s.fetch = .instr i) (hx : exec i s = .next t)
    (ha : s.awaiting = some .line) : t.outAnswers = s.outAnswers := by
  cases hf.symm.trans (hi.fetch_of_line ha)
  rw [exec_input_of_line ha] at hx
  rcases inRead_inputAnswered_cases hx with ⟨-, rfl⟩ | ⟨_, _, -, ⟨_, -, rfl⟩ | ⟨_, _, -, -, rfl⟩ | ⟨_, -, -, -, rfl⟩⟩ <;>
    rfl

/-- A step of INPUT past its write takes no second answer to a write, and any other step takes at most one. -/
theorem exec_answersIn_out_le (hi : s.Inv) (hf : s.fetch = .instr i) (hx : exec i s = .next t)
    (hq : t.outAnswers = s.outAnswers ∨ t.outAnswers = s.outAnswers.tail) :
    answersIn s.outAnswers + s.lineOpen ≤ answersIn t.outAnswers + 1 := by
  by_cases ha : s.awaiting = some .line
  · rw [State.lineOpen_of_line ha, exec_outAnswers_of_line hi hf hx ha]
  · rw [State.lineOpen_of_ne ha]
    exact (answersIn_le_of_polled hq).1

/-- Where less is left and no more bad lines are to come, the budget bounds the rejected lines anew. -/
theorem State.Budget.rejects_of_left_lt (h : s.Budget r fuel) (hi : s.Inv) (hleft : t.left < s.left)
    (hparams : t.params = s.params) (hbad : t.badLines ≤ s.badLines) :
    (∃ k, t.params.maxInputRetries = some k ∧ t.left * k ≤ r + t.rejected) ∨ t.badLines ≤ r := by
  rcases h.rejects with ⟨k, hmax, hle⟩ | hle
  · have hwithin := State.retriesExceeded_eq_false.1 hi.retries k hmax
    have hmul : (t.left + 1) * k ≤ s.left * k := Nat.mul_le_mul_right k hleft
    rw [Nat.succ_mul] at hmul
    exact .inl ⟨k, hparams ▸ hmax, by omega⟩
  · exact .inr (hbad.trans hle)

/-- An instruction completes: a byte or Statement less is left, for at most one answer of each queue. -/
theorem State.Budget.completed (h : s.Budget r (fuel + 1)) (hi : s.Inv) (hf : s.fetch = .instr i)
    (hx : exec i s = .next t) (hpc : t.pc = s.pc + s.len i) (ha : t.awaiting = none) : t.Budget r fuel := by
  have henv := (exec_effect hx).sameEnvironment
  have hend : t.progEnd = s.progEnd := by simp only [State.progEnd, henv.mode, henv.progLen, henv.program]
  have hleft := State.left_lt_of_completes hi.programWf hf hend hpc
  obtain ⟨q, hq, -, hqin, hqout⟩ := (exec_ends hx).polled
  obtain ⟨hpin, hpout⟩ := hq.answers
  rw [← hqin] at hpin
  rw [← hqout] at hpout
  have hsub : t.inAnswers.Sublist s.inAnswers := by
    rcases hpin with h | h <;> rw [h]
    exact List.tail_sublist _
  obtain ⟨hinAnswers, hinPauses⟩ := answersIn_le_of_polled hpin
  obtain ⟨-, houtPauses⟩ := answersIn_le_of_polled hpout
  have houtAnswers := exec_answersIn_out_le hi hf hx hpout
  have hls := s.lineOpen_le_one
  have hlt : t.lineOpen = 0 := State.lineOpen_of_ne (by simp [ha])
  have hrejects := h.rejects_of_left_lt hi hleft henv.params (State.badLines_le hsub)
  obtain ⟨-, hin, hout, hsteps⟩ := h
  exact ⟨hrejects, by omega, by omega, by omega⟩

theorem exec_silent_affords (h : s.Budget r (fuel + 1)) (hi : s.Inv) (hf : s.fetch = .instr i) (hin : i ≠ .input)
    (hout : i ≠ .output) (hx : exec i s = .next t) : t.Affords fuel := by
  cases exec_effect hx with
  | raised => exact .inl rfl
  | waits _ _ _ hw => cases hw <;> contradiction
  | completes _ _ _ _ _ hw =>
    obtain ⟨-, -, ha⟩ := hi.closesWith_eq hf hw
    exact .inr ⟨r, h.completed hi hf hx rfl ha⟩

theorem exec_output_affords (h : s.Budget r (fuel + 1)) (hi : s.Inv) (hf : s.fetch = .instr .output)
    (hx : exec .output s = .next t) : t.Affords fuel := by
  rcases execOutput_cases hx with ⟨-, rfl⟩ | ⟨v, rest, -, ⟨hq, rfl⟩ | ⟨later, -, rfl⟩ | ⟨later, -, rfl⟩⟩
  · exact .inl rfl
  · have hl : s.lineOpen = 0 := State.lineOpen_of_ne fun ha => by cases hf.symm.trans (hi.fetch_of_line ha)
    exact .inr ⟨r, (h.opened hl s.waitInput rfl .value).outWaits (State.left_pos hf) rfl hq⟩
  · exact .inr ⟨r, h.completed hi hf hx rfl rfl⟩
  · exact .inl rfl

theorem inputWrite_affords {text : Text} (h : s.Budget r (fuel + 1)) (hleft : 0 < s.left) (hl : s.lineOpen = 0)
    (hx : outWrite text inputWritten s = .next t) : t.Affords fuel := by
  rcases outWrite_inputWritten_cases hx with ⟨hq, rfl⟩ | ⟨later, hq, rfl⟩ | ⟨later, -, rfl⟩
  · exact .inr ⟨r, h.outWaits hleft hl hq⟩
  · exact .inr ⟨r, h.written hl hq _⟩
  · exact .inl rfl

theorem inputLine_affords (h : s.Budget r (fuel + 1)) (hi : s.Inv) (hf : s.fetch = .instr .input)
    (ha : s.awaiting = some .line) (hx : exec .input s = .next t) : t.Affords fuel := by
  have hread := (exec_input_of_line ha).symm.trans hx
  rcases inRead_inputAnswered_cases hread with
    ⟨hq, rfl⟩ | ⟨a, later, hq, ⟨_, -, rfl⟩ | ⟨line, v, -, -, rfl⟩ | ⟨line, rfl, hbad, hk, rfl⟩⟩
  · exact .inr ⟨r, h.inWaits (State.left_pos hf) hq⟩
  · exact .inl rfl
  · exact .inr ⟨r, h.completed hi hf hx rfl rfl⟩
  · exact .inr (h.rejected (State.left_pos hf) ha hq hbad hk _)

theorem exec_input_affords (h : s.Budget r (fuel + 1)) (hi : s.Inv) (hf : s.fetch = .instr .input)
    (hx : exec .input s = .next t) : t.Affords fuel := by
  have hleft := State.left_pos hf
  rcases execInput_cases hx with ⟨ha, hbegin⟩ | ⟨ha, hwrite⟩ | ⟨ha, -⟩ | ⟨ha, hwrite⟩
  · have hnone : s.rejected = 0 := by
      rcases hi.input_state hf with ⟨-, hr, -⟩ | ⟨-, ho, -⟩
      · exact hr
      · rcases ha with ha | ha <;> simp [ha, Awaiting.ofInput] at ho
    have hl : s.lineOpen = 0 := State.lineOpen_of_ne (by rcases ha with ha | ha <;> simp [ha])
    unfold inputBegin at hbegin
    split at hbegin
    · cases hbegin
      exact .inl rfl
    · exact inputWrite_affords (h.opened hl true hnone.symm .prompt) hleft rfl hbegin
  · exact inputWrite_affords h hleft (State.lineOpen_of_ne (by simp [ha])) hwrite
  · exact inputLine_affords h hi hf ha hx
  · exact inputWrite_affords h hleft (State.lineOpen_of_ne (by simp [ha])) hwrite

theorem exec_affords (h : s.Budget r (fuel + 1)) (hi : s.Inv) (hf : s.fetch = .instr i) (hx : exec i s = .next t) :
    t.Affords fuel := by
  by_cases hin : i = .input
  · subst hin
    exact exec_input_affords h hi hf hx
  · by_cases hout : i = .output
    · subst hout
      exact exec_output_affords h hi hf hx
    · exact exec_silent_affords h hi hf hin hout hx

/-! The run. -/

/-- The run is over, but not cancelled. -/
def State.Finished (s : State) : Prop := s.runState = .halted ∨ s.runState = .ended ∨ s.runState = .faulted

/-- No `rst` and no `cancel` is to come. -/
def State.Undisturbed (s : State) : Prop := ∀ c ∈ s.control, c.rst = false ∧ c.cancel = false

theorem State.Undisturbed.signals (h : s.Undisturbed) : s.signals.rst = false ∧ s.signals.cancel = false := by
  unfold State.signals
  cases hc : s.control with
  | nil => exact ⟨rfl, rfl⟩
  | cons c later => exact h c (by simp [hc])

theorem State.Undisturbed.tick (h : s.Undisturbed) : s.tick.Undisturbed := fun c hc => h c (List.mem_of_mem_tail hc)

/-- A finished run stays as it is (40_execution_cycle.md R109). -/
theorem run_finished (hs : s.Finished) (hc : s.Undisturbed) (n : Nat) :
    ∃ t, Host.Core.run Sys2Proof.core n s = .next t ∧ t.Finished := by
  induction n generalizing s with
  | zero => exact ⟨s, rfl, hs⟩
  | succ n ih =>
    have hstep : step s = .next s.tick :=
      nothingChangesAfterTheEnd s hc.signals.1 (by rcases hs with h | h | h <;> simp [h])
    rw [run_succ hstep]
    exact ih hs hc.tick

/-- A step of a running core finishes the run, or the run goes on with a step less. -/
theorem step_affords (h : s.Budget r (fuel + 1)) (hi : s.Inv) (hs : s.runState = .running) (hc : s.Undisturbed)
    (hx : step s = .next t) :
    t.Undisturbed ∧ (t.Finished ∨ t.runState = .running ∧ ∃ r', t.Budget r' fuel) := by
  obtain ⟨hrst, hcancel⟩ := hc.signals
  rw [step_of_executes ⟨hs, hrst, .inl hcancel⟩] at hx
  have henv := State.runInstruction_sameEnvironment hx
  refine ⟨fun c hm => hc.tick c (henv.control ▸ hm), ?_⟩
  rcases State.runInstruction_cases hx with ⟨-, rfl⟩ | ⟨i, hf, hx⟩ | ⟨e, -, rfl⟩
  · exact .inl (.inr (.inl rfl))
  · have hbudget : s.tick.Budget r (fuel + 1) := { h with }
    rcases exec_affords hbudget hi.tick hf hx with hfault | hnext
    · exact .inl (.inr (.inr hfault))
    · cases exec_effect hx with
      | raised => exact .inl (.inr (.inr rfl))
      | waits => exact .inr ⟨hs, hnext⟩
      | completes =>
        by_cases hhalt : i = .halt
        · exact .inl (.inl (if_pos hhalt))
        · exact .inr ⟨(if_neg hhalt).trans hs, hnext⟩
  · cases e <;> exact .inl (.inr (.inr rfl))

/-- A budget has a step left: where the line read that is open saves one, its INPUT is still to complete. -/
theorem State.Budget.fuel_pos (h : s.Budget r fuel) (hi : s.Inv) : 0 < fuel := by
  have hsteps := h.steps
  by_cases ha : s.awaiting = some .line
  · have hleft := State.left_pos (hi.fetch_of_line ha)
    rw [State.lineOpen_of_line ha] at hsteps
    omega
  · rw [State.lineOpen_of_ne ha] at hsteps
    omega

theorem run_finishes (h : s.Budget r fuel) (hi : s.Inv) (hs : s.runState = .running) (hc : s.Undisturbed) :
    ∃ t, Host.Core.run Sys2Proof.core fuel s = .next t ∧ t.Finished := by
  induction fuel generalizing s r with
  | zero => exact absurd (h.fuel_pos hi) (Nat.lt_irrefl 0)
  | succ fuel ih =>
    obtain ⟨t, ht, hit⟩ := stepKeepsTheInvariant s hi
    obtain ⟨hct, hfin | ⟨hst, r', hnext⟩⟩ := step_affords h hi hs hc ht
    · exact run_succ ht fuel ▸ run_finished hfin hct fuel
    · exact run_succ ht fuel ▸ ih hnext hit hst hct

/-- Settles O58: the statement's premises are a budget of `rejects` rejected lines and `bound` steps. -/
theorem answeredRunsEnd : Obligations.AnsweredRunsEnd := by
  intro s rejects bound hi hs hc hrejects hin hout hbound
  have hbudget : s.Budget rejects bound := by
    refine ⟨?_, hin, hout.trans (Nat.le_add_right _ _), hbound.ge.trans (Nat.le_add_right _ _)⟩
    rcases hrejects with ⟨k, hmax, hk⟩ | hbad
    · exact .inl ⟨k, hmax, hk.ge.trans (Nat.le_add_right _ _)⟩
    · exact .inr hbad.ge
  exact run_finishes hbudget hi hs hc

end Sys2Proof.Machine
end
